-- ==== Sys2Proof/Word.lean ====
section
/-! DEFINITION. The machine's word types (spec/00_scope.md R7, spec/10_state.md). All values are unsigned (R7). -/

namespace Sys2Proof

/-- A memory cell, a V register, a timer, a byte literal `kk`. -/
abbrev Byte := BitVec 8

/-- An instruction word, `pc`, `I`, a stack entry. -/
abbrev Word := BitVec 16

/-- A 4-bit field of an instruction word: a sub-opcode or the row count `n`. -/
abbrev Nibble := BitVec 4

/-- A register field `x` or `y`: every value names a register (spec/10_state.md R12). -/
abbrev RegIdx := BitVec 4

/-- `VF`: register 0xF in its use as the flags register (spec/00_scope.md R8, spec/10_state.md R13). -/
def vf : RegIdx := 0xF

/-- An address literal `nnn`. -/
abbrev Addr12 := BitVec 12

end Sys2Proof
end

