-- ==== Sys2Proof/Config.lean ====
section
/-! DEFINITION. The parameters of spec/00_scope.md R6, and the one free value of the model: the random source. -/

namespace Sys2Proof.Config

/-- `MEM_SIZE`: addresses 0x000 to 0xFFF. -/
def memSize : Nat := 4096

/-- `FB_WIDTH`: columns of the screen. -/
def fbWidth : Nat := 64

/-- `FB_HEIGHT`: rows of the screen. -/
def fbHeight : Nat := 32

/-- `PROGRAM_BASE`: load address and reset value of pc. -/
def programBase : Nat := 0x200

/-- `MAX_PROGRAM`: the longest program `load_program` accepts, in bytes. -/
def maxProgram : Nat := 3584

/-- `FONT_LOAD_BASE`: where reset places the font. -/
def fontLoadBase : Nat := 0x050

/-- `FONT_GLYPH_BYTES`: bytes of one glyph. -/
def fontGlyphBytes : Nat := 5

/-- `FONT_I_BASE`: what `Fx29` adds to `5 * V[x]` (spec/43_index_memory.md R112).
DESIGN CHOICE of the spec (D8, conflict C5), notes/assumptions/3.md; the other reading is 0x050. -/
def fontIBase : Word := 0x000

/-- `FONTSET`: 16 glyphs of 5 bytes, the table of spec/10_state.md R27.
PRESUMED (the spec marks the bytes as general knowledge, G1), notes/assumptions/4.md. -/
def fontset : List Byte :=
  [0xF0, 0x90, 0x90, 0x90, 0xF0, 0x20, 0x60, 0x20, 0x20, 0x70] ++
  [0xF0, 0x10, 0xF0, 0x80, 0xF0, 0xF0, 0x10, 0xF0, 0x10, 0xF0] ++
  [0x90, 0x90, 0xF0, 0x10, 0x10, 0xF0, 0x80, 0xF0, 0x10, 0xF0] ++
  [0xF0, 0x80, 0xF0, 0x90, 0xF0, 0xF0, 0x10, 0x20, 0x40, 0x40] ++
  [0xF0, 0x90, 0xF0, 0x90, 0xF0, 0xF0, 0x90, 0xF0, 0x10, 0xF0] ++
  [0xF0, 0x90, 0xF0, 0x90, 0x90, 0xE0, 0x90, 0xE0, 0x90, 0xE0] ++
  [0xF0, 0x80, 0x80, 0x80, 0xF0, 0xE0, 0x90, 0x90, 0x90, 0xE0] ++
  [0xF0, 0x80, 0xF0, 0x80, 0xF0, 0xF0, 0x80, 0xF0, 0x80, 0x80]

/-- The random source (spec/10_state.md R23, spec/42_alu.md R101): the byte answered to the k-th request.
A FREE VALUE: it has no body, so nothing relates one draw to another. notes/assumptions/2.md. -/
opaque randomByte : Nat → Byte

end Sys2Proof.Config
end

