-- ==== Sys2Proof/Syntax.lean ====
section
/-! DEFINITION. The instruction set: one constructor per row of spec/opcode_table.json (spec/30_encoding.md R56).
The operand types are exactly as wide as the fields of R52. -/

namespace Sys2Proof

inductive Instr where
  /-- `00E0` CLS -/
  | cls
  /-- `00EE` RET -/
  | ret
  /-- `1nnn` JP -/
  | jp (nnn : Addr12)
  /-- `2nnn` CALL -/
  | call (nnn : Addr12)
  /-- `3xkk` SE_IMM -/
  | seImm (x : RegIdx) (kk : Byte)
  /-- `4xkk` SNE_IMM -/
  | sneImm (x : RegIdx) (kk : Byte)
  /-- `5xy0` SE_REG -/
  | seReg (x y : RegIdx)
  /-- `6xkk` LD_IMM -/
  | ldImm (x : RegIdx) (kk : Byte)
  /-- `7xkk` ADD_IMM -/
  | addImm (x : RegIdx) (kk : Byte)
  /-- `8xy0` LD_REG -/
  | ldReg (x y : RegIdx)
  /-- `8xy1` OR -/
  | or (x y : RegIdx)
  /-- `8xy2` AND -/
  | and (x y : RegIdx)
  /-- `8xy3` XOR -/
  | xor (x y : RegIdx)
  /-- `8xy4` ADD_REG -/
  | addReg (x y : RegIdx)
  /-- `8xy5` SUB -/
  | sub (x y : RegIdx)
  /-- `8xy6` SHR -/
  | shr (x y : RegIdx)
  /-- `8xy7` SUBN -/
  | subn (x y : RegIdx)
  /-- `8xyE` SHL -/
  | shl (x y : RegIdx)
  /-- `9xy0` SNE_REG -/
  | sneReg (x y : RegIdx)
  /-- `Annn` LD_I -/
  | ldI (nnn : Addr12)
  /-- `Bnnn` JP_V0 -/
  | jpV0 (nnn : Addr12)
  /-- `Cxkk` RND -/
  | rnd (x : RegIdx) (kk : Byte)
  /-- `Dxyn` DRW -/
  | drw (x y : RegIdx) (n : Nibble)
  /-- `Ex9E` SKP -/
  | skp (x : RegIdx)
  /-- `ExA1` SKNP -/
  | sknp (x : RegIdx)
  /-- `Fx07` LD_VX_DT -/
  | ldVxDt (x : RegIdx)
  /-- `Fx0A` LD_VX_K -/
  | ldVxK (x : RegIdx)
  /-- `Fx15` LD_DT_VX -/
  | ldDtVx (x : RegIdx)
  /-- `Fx18` LD_ST_VX -/
  | ldStVx (x : RegIdx)
  /-- `Fx1E` ADD_I -/
  | addI (x : RegIdx)
  /-- `Fx29` LD_F -/
  | ldF (x : RegIdx)
  /-- `Fx33` LD_B -/
  | ldB (x : RegIdx)
  /-- `Fx55` ST_REGS -/
  | stRegs (x : RegIdx)
  /-- `Fx65` LD_REGS -/
  | ldRegs (x : RegIdx)
  deriving DecidableEq, Repr

end Sys2Proof
end

