-- ==== Sys2Proof/Decode.lean ====
section
/-! DEFINITION. The fields of an instruction word, the two-level decoder (spec/30_encoding.md R52, R54, R55), the encoder,
and the layout of a word in memory (spec/20_memory.md R31). -/

namespace Sys2Proof

/-- `op`, bits 15:12 (R52). -/
def opField (w : Word) : Nibble := w.extractLsb' 12 4

/-- `x`, bits 11:8 (R52). -/
def xField (w : Word) : RegIdx := w.extractLsb' 8 4

/-- `y`, bits 7:4 (R52). -/
def yField (w : Word) : RegIdx := w.extractLsb' 4 4

/-- `n`, bits 3:0 (R52). -/
def nField (w : Word) : Nibble := w.extractLsb' 0 4

/-- `kk`, bits 7:0 (R52). -/
def kkField (w : Word) : Byte := w.extractLsb' 0 8

/-- `nnn`, bits 11:0 (R52). -/
def nnnField (w : Word) : Addr12 := w.extractLsb' 0 12

/-- Group 0x0 matches the whole word (R55). -/
def decodeGroup0 (w : Word) : Option Instr :=
  if w = 0x00E0 then some .cls
  else if w = 0x00EE then some .ret
  else none

/-- Group 0x8 matches on `n` (R55). -/
def decodeGroup8 (x y : RegIdx) (n : Nibble) : Option Instr :=
  match n with
  | 0x0 => some (.ldReg x y)
  | 0x1 => some (.or x y)
  | 0x2 => some (.and x y)
  | 0x3 => some (.xor x y)
  | 0x4 => some (.addReg x y)
  | 0x5 => some (.sub x y)
  | 0x6 => some (.shr x y)
  | 0x7 => some (.subn x y)
  | 0xE => some (.shl x y)
  | _ => none

/-- Group 0xE matches on `kk` (R55). -/
def decodeGroupE (x : RegIdx) (kk : Byte) : Option Instr :=
  match kk with
  | 0x9E => some (.skp x)
  | 0xA1 => some (.sknp x)
  | _ => none

/-- Group 0xF matches on `kk` (R55). -/
def decodeGroupF (x : RegIdx) (kk : Byte) : Option Instr :=
  match kk with
  | 0x07 => some (.ldVxDt x)
  | 0x0A => some (.ldVxK x)
  | 0x15 => some (.ldDtVx x)
  | 0x18 => some (.ldStVx x)
  | 0x1E => some (.addI x)
  | 0x29 => some (.ldF x)
  | 0x33 => some (.ldB x)
  | 0x55 => some (.stRegs x)
  | 0x65 => some (.ldRegs x)
  | _ => none

/-- The instruction a word stands for; none for an unknown instruction (R55, R57). The exact-match reading is the
spec's decision D2, notes/assumptions/7.md. -/
def decodeWord (w : Word) : Option Instr :=
  match opField w with
  | 0x0 => decodeGroup0 w
  | 0x1 => some (.jp (nnnField w))
  | 0x2 => some (.call (nnnField w))
  | 0x3 => some (.seImm (xField w) (kkField w))
  | 0x4 => some (.sneImm (xField w) (kkField w))
  | 0x5 => if nField w = 0 then some (.seReg (xField w) (yField w)) else none
  | 0x6 => some (.ldImm (xField w) (kkField w))
  | 0x7 => some (.addImm (xField w) (kkField w))
  | 0x8 => decodeGroup8 (xField w) (yField w) (nField w)
  | 0x9 => if nField w = 0 then some (.sneReg (xField w) (yField w)) else none
  | 0xA => some (.ldI (nnnField w))
  | 0xB => some (.jpV0 (nnnField w))
  | 0xC => some (.rnd (xField w) (kkField w))
  | 0xD => some (.drw (xField w) (yField w) (nField w))
  | 0xE => decodeGroupE (xField w) (kkField w)
  | 0xF => decodeGroupF (xField w) (kkField w)
  | _ => none

/-- The word of two bytes, the one at the lower address first: big-endian (spec/20_memory.md R31). -/
def wordOfBytes (hi lo : Byte) : Word := hi ++ lo

/-- The byte of a word that lies at the lower address (spec/20_memory.md R31). -/
def highByte (w : Word) : Byte := w.extractLsb' 8 8

/-- The byte of a word that lies at the higher address (spec/20_memory.md R31). -/
def lowByte (w : Word) : Byte := w.extractLsb' 0 8

/-- Why a list of bytes does not begin with an instruction. -/
inductive DecodeRefusal where
  /-- Fewer than the two bytes of an instruction (R52). -/
  | truncated
  /-- A word that no row of the opcode map covers (R58). -/
  | unknownInstruction (w : Word)
  deriving DecidableEq, Repr

/-- Reads the instruction at the head of a list of bytes and returns the rest of the list. -/
def decode : List Byte → Except DecodeRefusal (Instr × List Byte)
  | hi :: lo :: rest =>
    match decodeWord (wordOfBytes hi lo) with
    | some i => .ok (i, rest)
    | none => .error (.unknownInstruction (wordOfBytes hi lo))
  | _ => .error .truncated

/-- The first `nbits` bits of `w` as the one word of an instruction, the bits above them zero. -/
def tableWord (nbits w : Nat) : Word := BitVec.ofNat 16 (w % 2 ^ nbits)

/-- The instruction the decoder reads from a word of spec/opcode_table.json, laid out as the hardware stores it. -/
def decodeTableWord (nbits w : Nat) : Option Instr :=
  match decode [highByte (tableWord nbits w), lowByte (tableWord nbits w)] with
  | .ok (i, _) => some i
  | .error _ => none

/-- The formats `Knnn` (R53). -/
def formNnn (op : Nibble) (nnn : Addr12) : Word := op ++ nnn

/-- The formats `Kxkk` and `KxSS` (R53). -/
def formXkk (op : Nibble) (x : RegIdx) (kk : Byte) : Word := op ++ x ++ kk

/-- The formats `KxyS` and `Kxyn` (R53). -/
def formXyn (op : Nibble) (x y : RegIdx) (n : Nibble) : Word := op ++ x ++ y ++ n

/-- The word of an instruction: its operand fields placed into the pattern of R56 (R53, R61). -/
def encode : Instr → Word
  | .cls => 0x00E0
  | .ret => 0x00EE
  | .jp nnn => formNnn 0x1 nnn
  | .call nnn => formNnn 0x2 nnn
  | .seImm x kk => formXkk 0x3 x kk
  | .sneImm x kk => formXkk 0x4 x kk
  | .seReg x y => formXyn 0x5 x y 0x0
  | .ldImm x kk => formXkk 0x6 x kk
  | .addImm x kk => formXkk 0x7 x kk
  | .ldReg x y => formXyn 0x8 x y 0x0
  | .or x y => formXyn 0x8 x y 0x1
  | .and x y => formXyn 0x8 x y 0x2
  | .xor x y => formXyn 0x8 x y 0x3
  | .addReg x y => formXyn 0x8 x y 0x4
  | .sub x y => formXyn 0x8 x y 0x5
  | .shr x y => formXyn 0x8 x y 0x6
  | .subn x y => formXyn 0x8 x y 0x7
  | .shl x y => formXyn 0x8 x y 0xE
  | .sneReg x y => formXyn 0x9 x y 0x0
  | .ldI nnn => formNnn 0xA nnn
  | .jpV0 nnn => formNnn 0xB nnn
  | .rnd x kk => formXkk 0xC x kk
  | .drw x y n => formXyn 0xD x y n
  | .skp x => formXkk 0xE x 0x9E
  | .sknp x => formXkk 0xE x 0xA1
  | .ldVxDt x => formXkk 0xF x 0x07
  | .ldVxK x => formXkk 0xF x 0x0A
  | .ldDtVx x => formXkk 0xF x 0x15
  | .ldStVx x => formXkk 0xF x 0x18
  | .addI x => formXkk 0xF x 0x1E
  | .ldF x => formXkk 0xF x 0x29
  | .ldB x => formXkk 0xF x 0x33
  | .stRegs x => formXkk 0xF x 0x55
  | .ldRegs x => formXkk 0xF x 0x65

/-- The two bytes of an instruction in address order. -/
def encodeBytes (i : Instr) : List Byte := [highByte (encode i), lowByte (encode i)]

end Sys2Proof
end

