-- ==== Sys2Proof/Machine/State.lean ====
section
/-! DEFINITION. The machine's state (spec/10_state.md R10 to R25), the reasons a step can stop, and the state after reset. -/

namespace Sys2Proof.Machine

/-- A memory in canonical form: addresses strictly rising, no entry equal to what an unlisted address reads as. -/
abbrev Memory := List Host.Cell

/-- A row of the screen, the left pixel first. -/
abbrev PixelRow := Vector Bool 64

/-- The screen: 32 rows, the top one first, of 64 pixels, the left one first. Pixel `cy*64 + cx` of the spec's row-major
numbering is column `cx` of row `cy` (spec/10_state.md R20, spec/40_display.md R72). -/
abbrev Display := Vector PixelRow 32

/-- What a completed step reports (spec/00_scope.md R5). The record's third field, the error, is the fault outcome. -/
structure StepOutput where
  /-- The tick took ST from 1 to 0 (spec/60_exceptions.md R143). -/
  beep : Bool
  /-- `UnknownInstruction(word)` (spec/30_encoding.md R58). -/
  diagnostic : Option Word
  deriving DecidableEq, Repr

/-- The empty record. -/
def StepOutput.empty : StepOutput := { beep := false, diagnostic := none }

/-- The twelve items of R10, the output record of the last step (log 8), and the model's own counter of random draws
(log 2). -/
structure State where
  /-- `mem`, R11 -/
  mem : Memory
  /-- `V[0..15]`, R12; V[0xF] is the flags register, R13 -/
  regs : Vector Byte 16
  /-- `I`, R14 -/
  index : Word
  /-- `pc`, R15 -/
  pc : Word
  /-- `stack[0..15]`, R16 -/
  stack : Vector Word 16
  /-- `sp`, the next free slot, 0 to 16, R16 -/
  sp : Fin 17
  /-- `DT`, R17 -/
  dt : Byte
  /-- `ST`, R18 -/
  st : Byte
  /-- `key[0..15]`, R19 -/
  keys : Vector Bool 16
  /-- `fb[0..2047]`, R20 -/
  fb : Display
  /-- `redraw_requested`, R21 -/
  redraw : Bool
  /-- `current_instruction`, R22 -/
  cur : Word
  /-- beep and diagnostic of the last completed step, spec/00_scope.md R5 -/
  out : StepOutput
  /-- how many random bytes have been drawn; the model's own, log 2 -/
  draws : Nat
  deriving DecidableEq, Repr

/-- The hard errors of spec/60_exceptions.md R151. Each ends the run and changes nothing (R130). All are safe: the
machine itself stops with that error. -/
inductive Fault where
  /-- Raised by the fetch of any step with `pc + 1 >= 4096` (R131). Safe. -/
  | fetchOutOfBounds (pc : Word)
  /-- Raised by DRW, LD_B, ST_REGS and LD_REGS when an accessed address is 4096 or more; the lowest such address
  (R132). Safe. -/
  | memoryOutOfBounds (addr : Nat)
  /-- Raised by CALL with `sp == 16` (R133). Safe. -/
  | stackOverflow (pc : Word)
  /-- Raised by RET with `sp == 0` (R134). Safe. -/
  | stackUnderflow (pc : Word)
  /-- Raised by SKP and SKNP with `V[x] > 15` (R135). Safe. -/
  | keypadIndexOutOfBounds (value : Byte)
  /-- Raised by DRW with `n >= 1` when the rectangle is not wholly on screen (R136). Safe. -/
  | drawOutOfBounds (px py : Byte) (n : Nibble)
  deriving DecidableEq, Repr

/-- Why an instruction has no meaning. -/
inductive Refusal where
  /-- Raised by exec's arm of an instruction not modelled yet; no arm does so now. Safe. -/
  | notModelled (mnemonic : String)
  deriving DecidableEq, Repr

/-- The state after `reset()` (spec/10_state.md R25). Memory lists nothing: what an unlisted address reads as is its reset
contents, the font included (Memory.unlisted in Ops). `I` and `cur` are 0 by the spec's decision D9, log 5. -/
def State.reset : State :=
  { mem := []
    regs := Vector.replicate 16 0
    index := 0
    pc := 0x200
    stack := Vector.replicate 16 0
    sp := 0
    dt := 0
    st := 0
    keys := Vector.replicate 16 false
    fb := Vector.replicate 32 (Vector.replicate 64 false)
    redraw := true
    cur := 0
    out := StepOutput.empty
    draws := 0 }

end Sys2Proof.Machine
end

