-- ==== Sys2Proof/Machine/Ops.lean ====
section
/-! DEFINITION. The named operations over memory, registers, stack, screen and timers, and raising a hard error
(spec/00_scope.md R8). Everything a meaning does goes through them. -/

namespace Sys2Proof.Machine

/-! Memory -/

/-- What an address nothing has written reads as: the reset contents (spec/20_memory.md R30; spec/10_state.md R25, R26). -/
def Memory.unlisted (a : Nat) : Byte :=
  if Config.fontLoadBase ≤ a then Config.fontset.getD (a - Config.fontLoadBase) 0 else 0

/-- The byte at an address. -/
def Memory.read : Memory → Nat → Byte
  | [], a => Memory.unlisted a
  | (k, b) :: m, a => if k = a then b else Memory.read m a

/-- The entry that makes address `a` read `b`: none when it does so unlisted. -/
def Memory.cell (a : Nat) (b : Byte) : Memory := if b = Memory.unlisted a then [] else [(a, b)]

/-- The memory with nothing listed at address `a`. -/
def Memory.erase : Memory → Nat → Memory
  | [], _ => []
  | (k, c) :: m, a => if k = a then Memory.erase m a else (k, c) :: Memory.erase m a

/-- Puts the entry for address `a` in its place among entries for other addresses. -/
def Memory.place : Memory → Nat → Byte → Memory
  | [], a, b => Memory.cell a b
  | (k, c) :: m, a, b => if a < k then Memory.cell a b ++ (k, c) :: m else (k, c) :: Memory.place m a b

/-- Stores one byte, keeping the canonical form. -/
def Memory.write (m : Memory) (a : Nat) (b : Byte) : Memory := (m.erase a).place a b

/-- Stores bytes at ascending addresses from `base` (spec/20_memory.md R32). -/
def Memory.writeList : Memory → Nat → List Byte → Memory
  | m, _, [] => m
  | m, base, b :: bs => Memory.writeList (Memory.write m base b) (base + 1) bs

/-- Reads `count` bytes at ascending addresses from `base` (spec/20_memory.md R32). -/
def Memory.readList (m : Memory) : Nat → Nat → List Byte
  | _, 0 => []
  | base, count + 1 => Memory.read m base :: Memory.readList m (base + 1) count

/-- The canonical form above a lower bound: addresses rise from `lo`, lie in the memory, and no entry repeats what is
read unlisted. -/
def Memory.wfFrom : Nat → Memory → Bool
  | _, [] => true
  | lo, (k, b) :: m => decide (lo ≤ k) && decide (k < Config.memSize) && (b != Memory.unlisted k) && Memory.wfFrom (k + 1) m

/-- The canonical form. -/
def Memory.wf (m : Memory) : Bool := Memory.wfFrom 0 m

/-- The byte the machine holds at an address. -/
def State.byteAt (s : State) (a : Nat) : Byte := s.mem.read a

/-- Stores bytes from `base` up. -/
def State.store (s : State) (base : Nat) (bytes : List Byte) : State := { s with mem := s.mem.writeList base bytes }

/-- The error of an access to the `count` addresses from `base`, if any: the lowest one out of bounds, checked before any
state changes and without wrap; an empty range has none (spec/20_memory.md R35). -/
def rangeError (base count : Nat) : Option Fault :=
  if 0 < count ∧ Config.memSize ≤ base + (count - 1) then some (.memoryOutOfBounds (max base Config.memSize)) else none

/-! Hard errors. There is no trap entry, no saved pc and no return (spec/60_exceptions.md R130, R141): a hard error ends the
step with its kind and its information, and the state is left as it was. -/

/-- `raise <Kind>(info)` (spec/00_scope.md R8, spec/60_exceptions.md R130). -/
def raise (e : Fault) : Host.Outcome State Fault Refusal := .fault e

/-- Ends an execute phase: with the error if there is one, else with the next state. -/
def finish (e : Option Fault) (t : State) : Host.Outcome State Fault Refusal :=
  match e with
  | some e => raise e
  | none => .next t

/-! Registers and pc -/

/-- `V[x]`. No register is hardwired (spec/10_state.md R12). -/
def State.reg (s : State) (x : RegIdx) : Byte := s.regs[x.toNat]'x.isLt

/-- `V[x] <- v` (spec/10_state.md R12). -/
def State.setReg (s : State) (x : RegIdx) (v : Byte) : State := { s with regs := s.regs.set x.toNat v x.isLt }

/-- `VF <- v` (spec/10_state.md R13). -/
def State.setFlag (s : State) (v : Byte) : State := s.setReg vf v

/-- `pc <- (pc + k) mod 65536` (spec/30_encoding.md R51). -/
def State.advance (s : State) (k : Word) : State := { s with pc := s.pc + k }

/-- A skip: 4 when the condition holds, else 2 (spec/41_control_flow.md R80). -/
def State.skipIf (s : State) (c : Bool) : State := s.advance (if c then 4 else 2)

/-- `pc <- target` (spec/41_control_flow.md R80). -/
def State.jump (s : State) (target : Word) : State := { s with pc := target }

/-- `I <- v` (spec/10_state.md R14). -/
def State.setIndex (s : State) (v : Word) : State := { s with index := v }

/-- `V[k] <- bytes[0]`, `V[k+1] <- bytes[1]`, ... (spec/43_index_memory.md R115). -/
def State.setRegsFrom : State → Nat → List Byte → State
  | s, _, [] => s
  | s, k, b :: bs => State.setRegsFrom (s.setReg (BitVec.ofNat 4 k) b) (k + 1) bs

/-! The return stack -/

/-- `stack[sp] <- pc; sp <- sp + 1`, for `sp` below 16 (spec/10_state.md R16, spec/41_control_flow.md R83). -/
def State.pushPc (s : State) : State :=
  { s with
    stack := s.stack.setIfInBounds s.sp.val s.pc
    sp := s.sp + 1 }

/-- The entry a return pops: `stack[sp - 1]` (spec/41_control_flow.md R81). -/
def State.topOfStack (s : State) : Word := s.stack.getD (s.sp.val - 1) 0

/-- `sp <- sp - 1`, for `sp` above 0; the entry is not erased (spec/10_state.md R16). -/
def State.dropTop (s : State) : State := { s with sp := s.sp - 1 }

/-! The screen -/

/-- A screen with every pixel clear. -/
def Display.clear : Display := Vector.replicate 32 (Vector.replicate 64 false)

/-- Row `cy` of the screen. -/
def Display.row (d : Display) (cy : Nat) : PixelRow := d.getD cy (Vector.replicate 64 false)

/-- The pixel in column `cx` and row `cy` (spec/40_display.md R72). -/
def Display.pixel (d : Display) (cx cy : Nat) : Bool := (d.row cy).getD cx false

/-- `fb[i]`, row-major: column `i mod 64` of row `i div 64` (spec/10_state.md R20). -/
def State.fbAt (s : State) (i : Nat) : Bool := s.fb.pixel (i % Config.fbWidth) (i / Config.fbWidth)

/-- A row of pixels in the course of a draw, and whether a set pixel has been cleared so far. -/
structure RowDraw where
  row : PixelRow
  collided : Bool
  deriving DecidableEq, Repr

/-- One sprite bit: 1 inverts its pixel and notes a collision with a set one, 0 leaves it (spec/40_display.md R71). -/
def RowDraw.bit (d : RowDraw) (on : Bool) (cx : Nat) : RowDraw :=
  if on then { row := d.row.setIfInBounds cx (!d.row.getD cx false), collided := d.collided || d.row.getD cx false } else d

/-- One sprite row, over the columns listed: bit `7 - c` lands on column `px + c` (spec/40_display.md R72; the bit
order is the spec's general knowledge, log 15). -/
def RowDraw.cols (b : Byte) (px : Nat) : List Nat → RowDraw → RowDraw
  | [], d => d
  | c :: cs, d => RowDraw.cols b px cs (d.bit (b.getLsbD (7 - c)) (px + c))

/-- The eight columns of a sprite row, left first. -/
def spriteColumns : List Nat := [0, 1, 2, 3, 4, 5, 6, 7]

/-- A screen in the course of a draw, and whether a set pixel has been cleared so far. -/
structure Drawing where
  display : Display
  collided : Bool
  deriving DecidableEq, Repr

/-- The sprite row `b` drawn at column `px` of row `cy`. -/
def Drawing.line (b : Byte) (px cy : Nat) (d : Drawing) : Drawing :=
  let r := RowDraw.cols b px spriteColumns { row := d.display.row cy, collided := d.collided }
  { display := d.display.setIfInBounds cy r.row, collided := r.collided }

/-- The sprite's rows from row `cy` down (spec/40_display.md R71). -/
def Drawing.rows (px : Nat) : Nat → List Byte → Drawing → Drawing
  | _, [], d => d
  | cy, b :: bs, d => Drawing.rows px (cy + 1) bs (d.line b px cy)

/-- Puts a new screen in place and requests a redraw (spec/10_state.md R21; log 13). -/
def State.setScreen (s : State) (d : Display) : State := { s with fb := d, redraw := true }

/-! Timers, keypad, random source -/

/-- `DT <- v`. -/
def State.setDelay (s : State) (v : Byte) : State := { s with dt := v }

/-- `ST <- v`. -/
def State.setSound (s : State) (v : Byte) : State := { s with st := v }

/-- `key[i]` (spec/10_state.md R19). -/
def State.key (s : State) (i : Nat) : Bool := s.keys.getD i false

/-- The least index of a pressed key, if any (spec/44_keypad_timers.md R123). -/
def State.firstKey (s : State) : Option Nat := s.keys.toList.findIdx? id

/-- `random_byte()`: the free value of this draw (spec/42_alu.md R101; log 2). -/
def State.randomByte (s : State) : Byte := Config.randomByte s.draws

/-- The draw has been taken: the next one is another. -/
def State.drawn (s : State) : State := { s with draws := s.draws + 1 }

/-- The timer tick: DT and ST count down to 0 and stop; beep when ST was exactly 1 (spec/60_exceptions.md R142, R143). -/
def State.tick (s : State) : State :=
  { s with
    dt := if s.dt = 0 then 0 else s.dt - 1
    st := if s.st = 0 then 0 else s.st - 1
    out := { s.out with beep := s.st == 1 } }

end Sys2Proof.Machine
end

