-- ==== Sys2Proof/Machine/Operands.lean ====
section
/-! DEFINITION. The operand forms of spec/30_encoding.md R54, and the error each one can raise. -/

namespace Sys2Proof.Machine

/-- `zext_16` of an address literal: not scaled, may be odd (R54). -/
def zextAddr (nnn : Addr12) : Word := nnn.setWidth 16

/-- `zext_16` of a byte (spec/00_scope.md R8). -/
def zextByte (b : Byte) : Word := b.setWidth 16

/-- How many registers the range V[0] to V[x] holds: `x + 1` (spec/43_index_memory.md R114). -/
def rangeCount (x : RegIdx) : Nat := x.toNat + 1

/-- The bytes V[0] to V[x] (spec/43_index_memory.md R114). -/
def State.regRange (s : State) (x : RegIdx) : List Byte := s.regs.toList.take (rangeCount x)

/-- The bytes `mem[I]` to `mem[I + count - 1]`. -/
def State.bytesAtIndex (s : State) (count : Nat) : List Byte := s.mem.readList s.index.toNat count

/-- The error of an access to `mem[I]` to `mem[I + count - 1]` (spec/20_memory.md R35). -/
def State.indexError (s : State) (count : Nat) : Option Fault := rangeError s.index.toNat count

/-- The error of the key index V[x]: it is not masked (spec/44_keypad_timers.md R120; spec/60_exceptions.md R135; log 10). -/
def keyError (v : Byte) : Option Fault := if 15 < v.toNat then some (.keypadIndexOutOfBounds v) else none

/-- The error of a sprite rectangle that is not wholly on screen, whatever its bits; none for no rows
(spec/40_display.md R71; spec/60_exceptions.md R136; log 10). -/
def rectError (px py : Byte) (n : Nibble) : Option Fault :=
  if 0 < n.toNat ∧ (63 < px.toNat + 7 ∨ 31 < py.toNat + (n.toNat - 1)) then some (.drawOutOfBounds px py n) else none

/-- The error of a draw: memory is tested before the screen (spec/60_exceptions.md R139). -/
def State.drawError (s : State) (px py : Byte) (n : Nibble) : Option Fault :=
  match s.indexError n.toNat with
  | some e => some e
  | none => rectError px py n

/-- The hundreds, tens and ones digits of a byte (spec/43_index_memory.md R113). -/
def decimalDigits (v : Byte) : List Byte :=
  [BitVec.ofNat 8 (v.toNat / 100), BitVec.ofNat 8 (v.toNat / 10 % 10), BitVec.ofNat 8 (v.toNat % 10)]

end Sys2Proof.Machine
end

