-- ==== Sys2Proof/Machine/Flags.lean ====
section
/-! DEFINITION. The values written to V[0xF] (spec/10_state.md R13). -/

namespace Sys2Proof.Machine

/-- A truth value as 1 or 0. -/
def flagOf (c : Bool) : Byte := if c then 1 else 0

/-- The 9-bit sum of two bytes (spec/42_alu.md R96). -/
def wideSum (a b : Byte) : Nat := a.toNat + b.toNat

/-- Carry out of bit 7 (spec/42_alu.md R96). -/
def carryFlag (a b : Byte) : Byte := flagOf (decide (255 < wideSum a b))

/-- No borrow in `a - b`: 0 when `b > a`, else 1 (spec/42_alu.md R97, R99). -/
def noBorrowFlag (a b : Byte) : Byte := flagOf (!decide (a.toNat < b.toNat))

/-- The bit a right shift moves out (spec/42_alu.md R98). -/
def shiftedOutLow (a : Byte) : Byte := a &&& 1

/-- The bit a left shift moves out (spec/42_alu.md R100). -/
def shiftedOutHigh (a : Byte) : Byte := flagOf (a &&& 0x80 != 0)

end Sys2Proof.Machine
end

