-- ==== Sys2Proof/Machine/Alu.lean ====
section
/-! DEFINITION. Register load, arithmetic, logic, shift and random (spec/42_alu.md). The assignments of an instruction run in
the order the spec writes them and each reads the registers as the one before left them (log 1), which decides the
forms that name V[0xF] as an operand (R103). -/

namespace Sys2Proof.Machine

/-- A logic operation of group 8: the result, then VF <- 0 (R93 to R95). -/
def State.logic (s : State) (x : RegIdx) (v : Byte) : State := ((s.setReg x v).setFlag 0).advance 2

/-- `6xkk` (R90). -/
def execLdImm (x : RegIdx) (kk : Byte) (s : State) : Host.Outcome State Fault Refusal := .next ((s.setReg x kk).advance 2)

/-- `7xkk` (R91): no flag. -/
def execAddImm (x : RegIdx) (kk : Byte) (s : State) : Host.Outcome State Fault Refusal :=
  .next ((s.setReg x (s.reg x + kk)).advance 2)

/-- `8xy0` (R92). -/
def execLdReg (x y : RegIdx) (s : State) : Host.Outcome State Fault Refusal := .next ((s.setReg x (s.reg y)).advance 2)

/-- `8xy1` (R93). -/
def execOr (x y : RegIdx) (s : State) : Host.Outcome State Fault Refusal := .next (s.logic x (s.reg x ||| s.reg y))

/-- `8xy2` (R94). -/
def execAnd (x y : RegIdx) (s : State) : Host.Outcome State Fault Refusal := .next (s.logic x (s.reg x &&& s.reg y))

/-- `8xy3` (R95). -/
def execXor (x y : RegIdx) (s : State) : Host.Outcome State Fault Refusal := .next (s.logic x (s.reg x ^^^ s.reg y))

/-- `8xy4` (R96): the sum of the old values, the flag, then the result. -/
def execAddReg (x y : RegIdx) (s : State) : Host.Outcome State Fault Refusal :=
  let sum := wideSum (s.reg x) (s.reg y)
  .next (((s.setFlag (carryFlag (s.reg x) (s.reg y))).setReg x (BitVec.ofNat 8 sum)).advance 2)

/-- `8xy5` (R97): the flag, then the difference of the registers read again. -/
def execSub (x y : RegIdx) (s : State) : Host.Outcome State Fault Refusal :=
  let f := s.setFlag (noBorrowFlag (s.reg x) (s.reg y))
  .next ((f.setReg x (f.reg x - f.reg y)).advance 2)

/-- `8xy6` (R98): the flag, then V[y] read again and shifted. -/
def execShr (x y : RegIdx) (s : State) : Host.Outcome State Fault Refusal :=
  let f := s.setFlag (shiftedOutLow (s.reg y))
  .next ((f.setReg x (f.reg y >>> 1)).advance 2)

/-- `8xy7` (R99): the flag, then the reverse difference of the registers read again. -/
def execSubn (x y : RegIdx) (s : State) : Host.Outcome State Fault Refusal :=
  let f := s.setFlag (noBorrowFlag (s.reg y) (s.reg x))
  .next ((f.setReg x (f.reg y - f.reg x)).advance 2)

/-- `8xyE` (R100): the flag, then V[y] read again and shifted. -/
def execShl (x y : RegIdx) (s : State) : Host.Outcome State Fault Refusal :=
  let f := s.setFlag (shiftedOutHigh (s.reg y))
  .next ((f.setReg x (f.reg y <<< 1)).advance 2)

/-- `Cxkk` (R101): the random byte is a free value (log 2). -/
def execRnd (x : RegIdx) (kk : Byte) (s : State) : Host.Outcome State Fault Refusal :=
  .next ((s.drawn.setReg x (kk &&& s.randomByte)).advance 2)

end Sys2Proof.Machine
end

