-- ==== Sys2Proof/Machine/Control.lean ====
section
/-! DEFINITION. Control transfer and the register-compare skips (spec/41_control_flow.md). -/

namespace Sys2Proof.Machine

/-- `00EE` (R81). -/
def execRet (s : State) : Host.Outcome State Fault Refusal :=
  finish (if s.sp = 0 then some (.stackUnderflow s.pc) else none) (s.dropTop.jump (s.topOfStack + 2))

/-- `1nnn` (R82). -/
def execJp (nnn : Addr12) (s : State) : Host.Outcome State Fault Refusal := .next (s.jump (zextAddr nnn))

/-- `2nnn` (R83): pushes the address of the call itself. -/
def execCall (nnn : Addr12) (s : State) : Host.Outcome State Fault Refusal :=
  finish (if s.sp = 16 then some (.stackOverflow s.pc) else none) (s.pushPc.jump (zextAddr nnn))

/-- `3xkk` (R84). -/
def execSeImm (x : RegIdx) (kk : Byte) (s : State) : Host.Outcome State Fault Refusal := .next (s.skipIf (s.reg x == kk))

/-- `4xkk` (R85). -/
def execSneImm (x : RegIdx) (kk : Byte) (s : State) : Host.Outcome State Fault Refusal := .next (s.skipIf (s.reg x != kk))

/-- `5xy0` (R86). -/
def execSeReg (x y : RegIdx) (s : State) : Host.Outcome State Fault Refusal := .next (s.skipIf (s.reg x == s.reg y))

/-- `9xy0` (R87). -/
def execSneReg (x y : RegIdx) (s : State) : Host.Outcome State Fault Refusal := .next (s.skipIf (s.reg x != s.reg y))

/-- `Bnnn` (R88): not reduced modulo 4096. -/
def execJpV0 (nnn : Addr12) (s : State) : Host.Outcome State Fault Refusal :=
  .next (s.jump (zextAddr nnn + zextByte (s.reg 0)))

end Sys2Proof.Machine
end

