-- ==== Sys2Proof/Machine/Display.lean ====
section
/-! DEFINITION. The display instructions (spec/40_display.md). -/

namespace Sys2Proof.Machine

/-- `00E0` (R70). -/
def execCls (s : State) : Host.Outcome State Fault Refusal := .next ((s.setScreen Display.clear).advance 2)

/-- `Dxyn` (R71): the coordinates are read before VF is written (log 6). VF follows the rule's loop: 1 when a pixel went
from set to clear, else 0 (log 20). -/
def execDrw (x y : RegIdx) (n : Nibble) (s : State) : Host.Outcome State Fault Refusal :=
  let px := s.reg x
  let py := s.reg y
  let d := Drawing.rows px.toNat py.toNat (s.bytesAtIndex n.toNat) { display := s.fb, collided := false }
  finish (s.drawError px py n) (((s.setScreen d.display).setFlag (flagOf d.collided)).advance 2)

end Sys2Proof.Machine
end

