-- ==== Sys2Proof/Machine/IndexMemory.lean ====
section
/-! DEFINITION. The index register and the memory transfers (spec/43_index_memory.md). -/

namespace Sys2Proof.Machine

/-- `Annn` (R110). -/
def execLdI (nnn : Addr12) (s : State) : Host.Outcome State Fault Refusal :=
  .next ((s.setIndex (zextAddr nnn)).advance 2)

/-- `Fx1E` (R111): modulo 65536, no flag. -/
def execAddI (x : RegIdx) (s : State) : Host.Outcome State Fault Refusal :=
  .next ((s.setIndex (s.index + zextByte (s.reg x))).advance 2)

/-- `Fx29` (R112): the base is the configuration's (log 3). -/
def execLdF (x : RegIdx) (s : State) : Host.Outcome State Fault Refusal :=
  .next ((s.setIndex (Config.fontIBase + 5 * zextByte (s.reg x))).advance 2)

/-- `Fx33` (R113): I is not changed. -/
def execLdB (x : RegIdx) (s : State) : Host.Outcome State Fault Refusal :=
  finish (s.indexError 3) ((s.store s.index.toNat (decimalDigits (s.reg x))).advance 2)

/-- `Fx55` (R114). -/
def execStRegs (x : RegIdx) (s : State) : Host.Outcome State Fault Refusal :=
  finish (s.indexError (rangeCount x))
    (((s.store s.index.toNat (s.regRange x)).setIndex (s.index + BitVec.ofNat 16 (rangeCount x))).advance 2)

/-- `Fx65` (R115). -/
def execLdRegs (x : RegIdx) (s : State) : Host.Outcome State Fault Refusal :=
  finish (s.indexError (rangeCount x))
    (((s.setRegsFrom 0 (s.bytesAtIndex (rangeCount x))).setIndex (s.index + BitVec.ofNat 16 (rangeCount x))).advance 2)

end Sys2Proof.Machine
end

