-- ==== Sys2Proof/Machine/KeypadTimers.lean ====
section
/-! DEFINITION. Keypad and timer instructions (spec/44_keypad_timers.md). -/

namespace Sys2Proof.Machine

/-- `Ex9E` (R120). -/
def execSkp (x : RegIdx) (s : State) : Host.Outcome State Fault Refusal :=
  finish (keyError (s.reg x)) (s.skipIf (s.key (s.reg x).toNat))

/-- `ExA1` (R121). -/
def execSknp (x : RegIdx) (s : State) : Host.Outcome State Fault Refusal :=
  finish (keyError (s.reg x)) (s.skipIf (!s.key (s.reg x).toNat))

/-- `Fx07` (R122): the value before this step's tick. -/
def execLdVxDt (x : RegIdx) (s : State) : Host.Outcome State Fault Refusal := .next ((s.setReg x s.dt).advance 2)

/-- `Fx0A` (R123): with no key down nothing changes and the next step runs it again. -/
def execLdVxK (x : RegIdx) (s : State) : Host.Outcome State Fault Refusal :=
  match s.firstKey with
  | some k => .next ((s.setReg x (BitVec.ofNat 8 k)).advance 2)
  | none => .next s

/-- `Fx15` (R124). -/
def execLdDtVx (x : RegIdx) (s : State) : Host.Outcome State Fault Refusal := .next ((s.setDelay (s.reg x)).advance 2)

/-- `Fx18` (R125). -/
def execLdStVx (x : RegIdx) (s : State) : Host.Outcome State Fault Refusal := .next ((s.setSound (s.reg x)).advance 2)

end Sys2Proof.Machine
end

