-- ==== Sys2Proof/Machine/Fetch.lean ====
section
/-! DEFINITION. The phases of a step around the instruction's own rule: fetch, the unknown instruction, and the end of a step
(spec/30_encoding.md R50, R51, R58). -/

namespace Sys2Proof.Machine

/-- The word at an address, big-endian (spec/20_memory.md R31). -/
def State.wordAt (s : State) (a : Nat) : Word := wordOfBytes (s.byteAt a) (s.byteAt (a + 1))

/-- Fetch: the word at pc, whatever its parity, or the fetch error; no state changes (R51; spec/20_memory.md R33, R34). -/
def State.fetch (s : State) : Except Fault Word :=
  if Config.memSize ≤ s.pc.toNat + 1 then .error (.fetchOutOfBounds s.pc) else .ok (s.wordAt s.pc.toNat)

/-- `ExecuteUnknown`: pc + 2 and nothing else (R58). -/
def execUnknown (s : State) : State := s.advance 2

/-- The end of a step that completes: `cur`, a fresh output record with the step's diagnostic, then the timer tick
(R50; spec/60_exceptions.md R142). -/
def State.complete (t : State) (word : Word) (diagnostic : Option Word) : State :=
  State.tick { t with cur := word, out := { beep := false, diagnostic := diagnostic } }

/-- What a step does once its word is fetched and its execute phase has ended (R50). -/
def completeOutcome (word : Word) : Host.Outcome State Fault Refusal → Host.Outcome State Fault Refusal
  | .next t => .next (t.complete word none)
  | .fault e => .fault e
  | .refused r => .refused r

/-- Places the word where the next step fetches. Where pc is past the last address a fetch can start at, no placing can be
fetched, so pc goes to the program base first. -/
def State.placeWord (s : State) (w : Word) : State :=
  let s := if Config.memSize ≤ s.pc.toNat + 1 then s.jump (BitVec.ofNat 16 Config.programBase) else s
  s.store s.pc.toNat [highByte w, lowByte w]

end Sys2Proof.Machine
end

