-- ==== Sys2Proof/Machine/Step.lean ====
section
/-! DEFINITION. One step: fetch, decode, execute, timer tick (spec/30_encoding.md R50). -/

namespace Sys2Proof.Machine

/-- One step (R50). An unknown word is no error: it is reported and skipped (R58). -/
def step (s : State) : Host.Outcome State Fault Refusal :=
  match s.fetch with
  | .error e => raise e
  | .ok w =>
    match decodeWord w with
    | none => .next ((execUnknown s).complete w (some w))
    | some i => completeOutcome w (exec i s)

/-- `s` with the table's word stored where the next step fetches it. -/
def State.withFetchWord (s : State) (nbits w : Nat) : State := s.placeWord (tableWord nbits w)

end Sys2Proof.Machine
end

