-- ==== Sys2Proof/Machine/HostOps.lean ====
section
/-! DEFINITION. What the host may do to the machine between steps (spec/70_reset_and_hazards.md R160 to R166) and what a step
reports to it (spec/00_scope.md R5; spec/60_exceptions.md R151). -/

namespace Sys2Proof.Machine

/-- `reset()` (R160): every item of spec/10_state.md R25, always successful. The random source is no part of the machine's
state, so its draws go on (log 2). -/
def State.hostReset (s : State) : State := { State.reset with draws := s.draws }

/-- The failures of a load (spec/60_exceptions.md R151). -/
inductive LoadError where
  /-- The program is longer than 3584 bytes (R161). -/
  | programTooLarge
  /-- Reading the file failed: reported by the ROM-loading collaborator, never by the core (spec/00_scope.md R3). -/
  | ioFailure
  deriving DecidableEq, Repr

/-- `load_program(bytes)` (R161): copies to 0x200 and changes nothing else; nothing is loaded of a program too large. -/
def State.loadProgram (s : State) (bytes : List Byte) : Except LoadError State :=
  if Config.maxProgram < bytes.length then .error .programTooLarge else .ok (s.store Config.programBase bytes)

/-- `set_key(index, pressed)` (R163); no move exists for an index above 15 (spec/93_implementation_defined.md U12). -/
def State.setKey (s : State) (index : Nat) (pressed : Bool) : Option State :=
  if index < 16 then some { s with keys := s.keys.setIfInBounds index pressed } else none

/-- The host has consumed a frame (R164). -/
def State.clearRedraw (s : State) : State := { s with redraw := false }

/-- The pixels the host reads (R164), row-major, row `cy` of them. -/
def State.frameRow (s : State) (cy : Nat) : List Bool := (s.fb.row cy).toList

/-- The nine error kinds of spec/60_exceptions.md R151. -/
inductive ErrorKind where
  | fetchOutOfBounds | memoryOutOfBounds | stackOverflow | stackUnderflow | keypadIndexOutOfBounds | drawOutOfBounds
  | unknownInstruction | programTooLarge | ioFailure
  deriving DecidableEq, Repr

/-- The ordinals of R151. -/
def errorOrdinal : ErrorKind → Nat
  | .fetchOutOfBounds => 1
  | .memoryOutOfBounds => 2
  | .stackOverflow => 3
  | .stackUnderflow => 4
  | .keypadIndexOutOfBounds => 5
  | .drawOutOfBounds => 6
  | .unknownInstruction => 7
  | .programTooLarge => 8
  | .ioFailure => 9

/-- The kind of a hard error. -/
def faultKind : Fault → ErrorKind
  | .fetchOutOfBounds _ => .fetchOutOfBounds
  | .memoryOutOfBounds _ => .memoryOutOfBounds
  | .stackOverflow _ => .stackOverflow
  | .stackUnderflow _ => .stackUnderflow
  | .keypadIndexOutOfBounds _ => .keypadIndexOutOfBounds
  | .drawOutOfBounds _ _ _ => .drawOutOfBounds

/-- The kind of a load's failure. -/
def loadErrorKind : LoadError → ErrorKind
  | .programTooLarge => .programTooLarge
  | .ioFailure => .ioFailure

/-- The whole output record of a step (spec/00_scope.md R5). -/
structure OutputRecord where
  beep : Bool
  diagnostic : Option Word
  error : Option Fault
  deriving DecidableEq, Repr

/-- What the step from `s` reports: after a hard error only the error (spec/60_exceptions.md R130). -/
def stepOutput (s : State) : OutputRecord :=
  match step s with
  | .next t => { beep := t.out.beep, diagnostic := t.out.diagnostic, error := none }
  | .fault e => { beep := false, diagnostic := none, error := some e }
  | .refused _ => { beep := false, diagnostic := none, error := none }

/-- The state the host finds after the step from `s`: a hard error leaves it as it was (spec/60_exceptions.md R130). -/
def stateAfter (s : State) : State :=
  match step s with
  | .next t => t
  | .fault _ => s
  | .refused _ => s

end Sys2Proof.Machine
end

