-- ==== Sys2Proof/Safety.lean ====
section
/-! DEFINITION. The terms claims are stated in: what an instruction may write (its frame), the machine's invariant, the moves
of the machine and its host, and the end of a run. -/

namespace Sys2Proof.Machine

/-! Frames -/

/-- The items of the state (spec/10_state.md R10), the output record, and the model's draw counter. -/
inductive Piece where
  | mem | regs | index | pc | stack | sp | dt | st | keys | fb | redraw | cur | out | draws
  deriving DecidableEq, Repr

/-- The item is the same in both states; memory byte by byte. -/
def Unchanged : Piece → State → State → Prop
  | .mem, s, t => ∀ a, t.byteAt a = s.byteAt a
  | .regs, s, t => ∀ r, t.reg r = s.reg r
  | .index, s, t => t.index = s.index
  | .pc, s, t => t.pc = s.pc
  | .stack, s, t => t.stack = s.stack
  | .sp, s, t => t.sp = s.sp
  | .dt, s, t => t.dt = s.dt
  | .st, s, t => t.st = s.st
  | .keys, s, t => t.keys = s.keys
  | .fb, s, t => t.fb = s.fb
  | .redraw, s, t => t.redraw = s.redraw
  | .cur, s, t => t.cur = s.cur
  | .out, s, t => t.out = s.out
  | .draws, s, t => t.draws = s.draws

/-- Every item but those listed is the same in both states. -/
def KeepsAllBut (ps : List Piece) (s t : State) : Prop := ∀ p, p ∉ ps → Unchanged p s t

/-- What the execute phase of an instruction may write: the table of spec/10_state.md R24, with pc, and with the model's
draw counter for RND. -/
def writtenBy : Instr → List Piece
  | .cls => [.pc, .fb, .redraw]
  | .ret => [.pc, .sp]
  | .jp _ => [.pc]
  | .call _ => [.pc, .stack, .sp]
  | .seImm _ _ => [.pc]
  | .sneImm _ _ => [.pc]
  | .seReg _ _ => [.pc]
  | .ldImm _ _ => [.pc, .regs]
  | .addImm _ _ => [.pc, .regs]
  | .ldReg _ _ => [.pc, .regs]
  | .or _ _ => [.pc, .regs]
  | .and _ _ => [.pc, .regs]
  | .xor _ _ => [.pc, .regs]
  | .addReg _ _ => [.pc, .regs]
  | .sub _ _ => [.pc, .regs]
  | .shr _ _ => [.pc, .regs]
  | .subn _ _ => [.pc, .regs]
  | .shl _ _ => [.pc, .regs]
  | .sneReg _ _ => [.pc]
  | .ldI _ => [.pc, .index]
  | .jpV0 _ => [.pc]
  | .rnd _ _ => [.pc, .regs, .draws]
  | .drw _ _ _ => [.pc, .regs, .fb, .redraw]
  | .skp _ => [.pc]
  | .sknp _ => [.pc]
  | .ldVxDt _ => [.pc, .regs]
  | .ldVxK _ => [.pc, .regs]
  | .ldDtVx _ => [.pc, .dt]
  | .ldStVx _ => [.pc, .st]
  | .addI _ => [.pc, .index]
  | .ldF _ => [.pc, .index]
  | .ldB _ => [.pc, .mem]
  | .stRegs _ => [.pc, .mem, .index]
  | .ldRegs _ => [.pc, .regs, .index]

/-- Whether an instruction may write register `r`: its destination `x`, V[0xF] where it is a flag (spec/10_state.md R13),
and V[0] to V[x] for LD_REGS. -/
def writesReg : Instr → RegIdx → Bool
  | .ldImm x _, r => r == x
  | .addImm x _, r => r == x
  | .ldReg x _, r => r == x
  | .or x _, r => r == x || r == vf
  | .and x _, r => r == x || r == vf
  | .xor x _, r => r == x || r == vf
  | .addReg x _, r => r == x || r == vf
  | .sub x _, r => r == x || r == vf
  | .shr x _, r => r == x || r == vf
  | .subn x _, r => r == x || r == vf
  | .shl x _, r => r == x || r == vf
  | .rnd x _, r => r == x
  | .drw _ _ _, r => r == vf
  | .ldVxDt x, r => r == x
  | .ldVxK x, r => r == x
  | .ldRegs x, r => decide (r.toNat ≤ x.toNat)
  | _, _ => false

/-- How many bytes from address `I` up an instruction stores: 3 for LD_B, x + 1 for ST_REGS, none for the others
(spec/20_memory.md R37). -/
def storedCount : Instr → Nat
  | .ldB _ => 3
  | .stRegs x => rangeCount x
  | _ => 0

/-! Encodings -/

/-- The words with `word AND mask == value`, and no others, are read as the instruction `i` builds from the word's fields
(spec/30_encoding.md R55). -/
def ReadsAs (mask value : Word) (i : Word → Instr) : Prop := ∀ w : Word, decodeWord w = some (i w) ↔ w &&& mask = value

/-! What a sprite puts on the screen -/

/-- The sprite bit that lands on column `cx`, row `cy`, for a sprite of `n` rows at (`px`, `py`) whose rows start at `mem[I]`;
false outside its rectangle (spec/40_display.md R72). -/
def State.spriteBit (s : State) (px py n cx cy : Nat) : Bool :=
  decide (px ≤ cx) && decide (cx < px + 8) && decide (py ≤ cy) && decide (cy < py + n) &&
    (s.byteAt (s.index.toNat + (cy - py))).getLsbD (7 - (cx - px))

/-! The invariant -/

/-- What every state a run reaches satisfies: memory in canonical form; every stack entry the address of an instruction that
could be fetched (spec/41_control_flow.md R81); pc at most 0x10FE (spec/10_state.md R15); a beep only with ST at 0
(spec/60_exceptions.md R143). -/
abbrev State.Inv (s : State) : Prop :=
  s.mem.wf = true ∧ (∀ k : Fin 16, s.stack[k].toNat ≤ 0xFFE) ∧ s.pc.toNat ≤ 0x10FE ∧ (s.out.beep = true → s.st = 0)

/-! Moves and runs -/

/-- One move: a step of the core that completes, or an operation of the host between steps (spec/20_memory.md R39,
spec/70_reset_and_hazards.md R160 to R166). -/
inductive Move (s : State) : State → Prop where
  | step {t : State} (h : Machine.step s = .next t) : Move s t
  | setKey {index : Nat} {pressed : Bool} {t : State} (h : s.setKey index pressed = some t) : Move s t
  | clearRedraw : Move s s.clearRedraw
  | load {bytes : List Byte} {t : State} (h : s.loadProgram bytes = .ok t) : Move s t
  | reset : Move s s.hostReset

/-- The states of runs that start at reset (spec/70_reset_and_hazards.md R167). -/
inductive Reachable : State → Prop where
  | start : Reachable State.reset
  | move {s t : State} (h : Reachable s) (m : Move s t) : Reachable t

/-- The instruction the next step runs, if its fetch succeeds and its word is one. -/
def State.nextInstr (s : State) : Option Instr :=
  match s.fetch with
  | .ok w => decodeWord w
  | .error _ => none

/-- A self-jump, the customary end of a program (spec/70_reset_and_hazards.md R171; log 18). -/
abbrev State.AtSelfJump (s : State) : Prop :=
  s.pc.toNat + 1 < Config.memSize ∧ s.wordAt s.pc.toNat = 0x1000 ||| s.pc

end Sys2Proof.Machine
end

