-- ==== Sys2Proof/Certificates/Slice0/Obligations.lean ====
section
/-! DEFINITION. The statements for the provers. Each docstring names the rule of spec/ it comes from; "log <n>" is
notes/assumptions/<n>.md, named where a clause rests on a choice the spec marks as its own. -/

open Sys2Proof Sys2Proof.Machine

/-! ## Encoding -/

/-- Words of spec/95_test_vectors.md and of the worked examples, one or more per family, read by the decoder
(spec/30_encoding.md R56). -/
def Obligations.SampleWordsDecode : Prop :=
  decodeWord 0x00E0 = some .cls ∧ decodeWord 0xD125 = some (.drw 1 2 5) ∧ decodeWord 0x220A = some (.call 0x20A) ∧
    decodeWord 0x4311 = some (.sneImm 3 0x11) ∧ decodeWord 0x6A05 = some (.ldImm 0xA 0x05) ∧
    decodeWord 0x8014 = some (.addReg 0 1) ∧ decodeWord 0xC30F = some (.rnd 3 0x0F) ∧
    decodeWord 0xA300 = some (.ldI 0x300) ∧ decodeWord 0xF155 = some (.stRegs 1) ∧ decodeWord 0xE19E = some (.skp 1) ∧
    decodeWord 0xF20A = some (.ldVxK 2) ∧ decodeWord 0x0000 = none ∧ decodeWord 0x5121 = none

/-- Decoding an encoded instruction gives it back, for every instruction and every operand: every operand value is
legal (spec/30_encoding.md R54, R56; the exact-match reading is decision D2, log 7). -/
def Obligations.DecodeEncodeRoundTrip : Prop := ∀ i : Instr, decodeWord (encode i) = some i

/-- Encoding a decoded word gives the word back: a word has at most one reading and no bit of it is dropped. -/
def Obligations.EncodeDecodeRoundTrip : Prop := ∀ (w : Word) (i : Instr), decodeWord w = some i → encode i = w

/-- The two-level decoder accepts exactly the words that a row of the opcode map covers, and reads each as an
instruction of that row (spec/30_encoding.md R55; decision D2, log 7). -/
def Obligations.DecoderFollowsOpcodeMap : Prop :=
  ∀ w : Word, (wellFormedWord w = true ↔ ∃ i, decodeWord w = some i) ∧
    ∀ i, decodeWord w = some i → i.row ∈ opcodeMap ∧ i.row.covers w = true

/-- No word is covered by two rows of the opcode map (spec/30_encoding.md R55). -/
def Obligations.OpcodeRowsDisjoint : Prop :=
  ∀ (w : Word) (r q : OpRow), r ∈ opcodeMap → q ∈ opcodeMap → r.covers w = true → q.covers w = true → r = q

/-- The six fields by mask and shift, for every word, their overlaps, and the one length of two bytes
(spec/30_encoding.md R52). -/
def Obligations.WordFieldsByMaskAndShift : Prop :=
  (∀ w : Word, (opField w).setWidth 16 <<< 12 = w &&& 0xF000 ∧ (xField w).setWidth 16 = (w &&& 0x0F00) >>> 8 ∧
    (yField w).setWidth 16 = (w &&& 0x00F0) >>> 4 ∧ (nField w).setWidth 16 = w &&& 0x000F ∧
    (kkField w).setWidth 16 = w &&& 0x00FF ∧ (nnnField w).setWidth 16 = w &&& 0x0FFF ∧
    kkField w = yField w ++ nField w ∧ nnnField w = xField w ++ yField w ++ nField w) ∧
  ∀ (hi lo : Byte) (rest rest' : List Byte) (i : Instr), decode (hi :: lo :: rest) = .ok (i, rest') → rest' = rest

/-- The fetch is big-endian: the byte at the lower address is the more significant half (spec/20_memory.md R31). -/
def Obligations.FetchIsBigEndian : Prop :=
  ∀ (s : State) (w : Word), s.fetch = .ok w →
    w.extractLsb' 8 8 = s.byteAt s.pc.toNat ∧ w.extractLsb' 0 8 = s.byteAt (s.pc.toNat + 1)

/-! ## The step -/

/-- When the word at pc decodes to an instruction, the step is its execute phase followed by the end of a step: `cur` is
the word, there is no diagnostic, and the timers tick; an error of the execute phase is the step's
(spec/30_encoding.md R50). -/
def Obligations.StepRunsDecodedInstruction : Prop :=
  ∀ (s : State) (i : Instr), s.pc.toNat + 1 < 4096 → decodeWord (s.wordAt s.pc.toNat) = some i →
    (∀ t, exec i s = .next t → step s = .next (t.complete (s.wordAt s.pc.toNat) none)) ∧
    (∀ e, exec i s = .fault e → step s = .fault e)

/-- What the end of a step does: `cur`, the output record and one tick of each timer, nothing else (spec/30_encoding.md R50,
spec/60_exceptions.md R142; that the tick comes last is decision D11, log 12). -/
def Obligations.StepEndsWithTimerTick : Prop :=
  ∀ (s : State) (w : Word) (d : Option Word),
    (s.complete w d).dt.toNat = s.dt.toNat - 1 ∧ (s.complete w d).st.toNat = s.st.toNat - 1 ∧
    ((s.complete w d).out.beep = true ↔ s.st = 1) ∧ (s.complete w d).out.diagnostic = d ∧ (s.complete w d).cur = w ∧
    KeepsAllBut [.dt, .st, .out, .cur] s (s.complete w d)

/-- A word that is no instruction is no error: the step reports it, advances pc by 2, ticks, and changes nothing else
(spec/30_encoding.md R58). -/
def Obligations.UnknownWordIsReportedAndSkipped : Prop :=
  ∀ s : State, s.pc.toNat + 1 < 4096 → decodeWord (s.wordAt s.pc.toNat) = none →
    ∃ t, step s = .next t ∧ t.pc = s.pc + 2 ∧ t.out.diagnostic = some (s.wordAt s.pc.toNat) ∧
      t.cur = s.wordAt s.pc.toNat ∧ t.dt.toNat = s.dt.toNat - 1 ∧ t.st.toNat = s.st.toNat - 1 ∧
      (t.out.beep = true ↔ s.st = 1) ∧ KeepsAllBut [.pc, .out, .cur, .dt, .st] s t

/-- A step raises the fetch error exactly when `pc + 1 >= 4096`, with the value of pc (spec/60_exceptions.md R131). -/
def Obligations.FetchErrorExactlyPastMemory : Prop :=
  ∀ (s : State) (p : Word), step s = .fault (.fetchOutOfBounds p) ↔ 4096 ≤ s.pc.toNat + 1 ∧ p = s.pc

/-- The execute-phase errors, all of them, each with its condition and its information, memory before screen in DRW
(spec/60_exceptions.md R132 to R136, R139, R151; decisions D3 to D6 and D17, log 10). No instruction is refused. -/
def Obligations.ExecuteErrorsExactly : Prop :=
  (∀ (i : Instr) (s : State) (e : Fault), exec i s = .fault e ↔
    (i = .ret ∧ s.sp = 0 ∧ e = .stackUnderflow s.pc) ∨
    (∃ nnn, i = .call nnn ∧ s.sp = 16 ∧ e = .stackOverflow s.pc) ∨
    (∃ x, (i = .skp x ∨ i = .sknp x) ∧ 15 < (s.reg x).toNat ∧ e = .keypadIndexOutOfBounds (s.reg x)) ∨
    (∃ x, i = .ldB x ∧ 4096 ≤ s.index.toNat + 2 ∧ e = .memoryOutOfBounds (max s.index.toNat 4096)) ∨
    (∃ x, (i = .stRegs x ∨ i = .ldRegs x) ∧ 4096 ≤ s.index.toNat + x.toNat ∧
      e = .memoryOutOfBounds (max s.index.toNat 4096)) ∨
    (∃ x y n, i = .drw x y n ∧ 1 ≤ n.toNat ∧ 4096 ≤ s.index.toNat + (n.toNat - 1) ∧
      e = .memoryOutOfBounds (max s.index.toNat 4096)) ∨
    (∃ x y n, i = .drw x y n ∧ 1 ≤ n.toNat ∧ s.index.toNat + (n.toNat - 1) < 4096 ∧
      (63 < (s.reg x).toNat + 7 ∨ 31 < (s.reg y).toNat + n.toNat - 1) ∧
      e = .drawOutOfBounds (s.reg x) (s.reg y) n)) ∧
  ∀ (i : Instr) (s : State) (r : Refusal), exec i s ≠ .refused r

/-- No hard error depends on the keys or on the random source: neither `set_key` nor another draw removes its cause
(spec/60_exceptions.md R130 (d); decision D10, log 11). -/
def Obligations.ErrorsIgnoreKeysAndDraws : Prop :=
  ∀ (s : State) (keys : Vector Bool 16) (draws : Nat) (e : Fault),
    step s = .fault e → step { s with keys := keys, draws := draws } = .fault e

/-- The output record: after a hard error only the error, and the state as it was, so that the step fails again; after a
completed step no error (spec/00_scope.md R5, spec/60_exceptions.md R130; decisions D10, D22, log 8 and 11). -/
def Obligations.OutputRecordOfStep : Prop :=
  (∀ (s : State) (e : Fault), step s = .fault e →
    stepOutput s = { beep := false, diagnostic := none, error := some e } ∧ stateAfter s = s ∧
    step (stateAfter s) = .fault e) ∧
  ∀ s t : State, step s = .next t →
    stepOutput s = { beep := t.out.beep, diagnostic := t.out.diagnostic, error := none } ∧ stateAfter s = t

/-! ## Timers over whole steps -/

/-- Every completed step counts each timer down once and stops at 0, whatever it ran, unless it loaded that timer; it beeps
exactly when ST was 1 (spec/60_exceptions.md R142, R143; decision D11, log 12). -/
def Obligations.EveryStepTicksTimers : Prop :=
  ∀ s t : State, step s = .next t →
    ((∀ x, s.nextInstr ≠ some (.ldDtVx x)) → t.dt.toNat = s.dt.toNat - 1) ∧
    ((∀ x, s.nextInstr ≠ some (.ldStVx x)) →
      t.st.toNat = s.st.toNat - 1 ∧ (t.out.beep = true ↔ s.st = 1))

/-- A timer loaded in a step has been counted down once when the step ends; loading ST with 1 beeps at once
(spec/44_keypad_timers.md R124, R125, whose tick clauses the spec marks as derived; log 12). -/
def Obligations.LoadedTimerTicksInSameStep : Prop :=
  ∀ (s : State) (x : RegIdx),
    (s.nextInstr = some (.ldDtVx x) → ∃ t, step s = .next t ∧ t.dt.toNat = (s.reg x).toNat - 1) ∧
    (s.nextInstr = some (.ldStVx x) →
      ∃ t, step s = .next t ∧ t.st.toNat = (s.reg x).toNat - 1 ∧ (t.out.beep = true ↔ s.reg x = 1))

/-- A sound timer loaded with `v >= 1` in the first of `v` steps, and by none after it, reaches 0 and beeps in the last of
them and in none before (spec/60_exceptions.md R143). -/
def Obligations.SoundTimerBeepsAfterItsSteps : Prop :=
  ∀ (tr : Nat → State) (x : RegIdx) (v : Nat),
    (∀ k, k < v → step (tr k) = .next (tr (k + 1))) → (tr 0).nextInstr = some (.ldStVx x) →
    ((tr 0).reg x).toNat = v → 1 ≤ v → (∀ k, 1 ≤ k → k < v → ∀ y, (tr k).nextInstr ≠ some (.ldStVx y)) →
    (tr v).st = 0 ∧ (tr v).out.beep = true ∧ ∀ k, 1 ≤ k → k < v → (tr k).out.beep = false

/-- A delay of `v` is read `j` steps later as `max(v - j, 0)` (spec/60_exceptions.md R144, derived there). -/
def Obligations.DelayReadAfterSteps : Prop :=
  ∀ (tr : Nat → State) (x y : RegIdx) (j : Nat), 1 ≤ j →
    (∀ k, k ≤ j → step (tr k) = .next (tr (k + 1))) → (tr 0).nextInstr = some (.ldDtVx x) →
    (∀ k, 1 ≤ k → k < j → ∀ z, (tr k).nextInstr ≠ some (.ldDtVx z)) → (tr j).nextInstr = some (.ldVxDt y) →
    ((tr (j + 1)).reg y).toNat = ((tr 0).reg x).toNat - j

/-! ## Frames over all instructions -/

/-- No instruction writes an item that the access table does not give it (spec/10_state.md R24, derived there). -/
def Obligations.InstructionsWriteOnlyTheirItems : Prop :=
  ∀ (i : Instr) (s t : State), exec i s = .next t → KeepsAllBut (writtenBy i) s t

/-- Every register keeps its value but an instruction's destination, V[0xF] where it is the flag, and V[0] to V[x] of a
register load (spec/10_state.md R12, R13, R24). -/
def Obligations.InstructionsWriteOnlyTheirRegisters : Prop :=
  ∀ (i : Instr) (s t : State), exec i s = .next t → ∀ r, writesReg i r = false → t.reg r = s.reg r

/-- Every byte of memory keeps its value but the bytes stored from address I up: 3 by LD_B, x + 1 by ST_REGS, none by any
other instruction (spec/20_memory.md R37). -/
def Obligations.InstructionsStoreOnlyTheirBytes : Prop :=
  ∀ (i : Instr) (s t : State), exec i s = .next t →
    ∀ a, ¬ (s.index.toNat ≤ a ∧ a < s.index.toNat + storedCount i) → t.byteAt a = s.byteAt a

/-- The core never writes the keypad, never clears the redraw flag, and sets it whenever a step changes the framebuffer
(spec/10_state.md R19, R21). -/
def Obligations.StepsKeepKeysAndAnnounceFrames : Prop :=
  ∀ s t : State, step s = .next t →
    t.keys = s.keys ∧ (s.redraw = true → t.redraw = true) ∧ (t.fb ≠ s.fb → t.redraw = true)

/-! ## The invariant -/

/-- Every step keeps the invariant: memory stays in canonical form inside 0x000 to 0xFFF, the stack holds only addresses of
instructions that were fetched, pc stays at or below 0x10FE, a beep leaves ST at 0 (spec/10_state.md R15, R16;
spec/41_control_flow.md R81; spec/60_exceptions.md R143). -/
def Obligations.StepKeepsInvariant : Prop := ∀ s t : State, s.Inv → step s = .next t → t.Inv

/-- The state after reset meets the invariant. -/
def Obligations.ResetMeetsInvariant : Prop := State.reset.Inv

/-- No operation of the host breaks the invariant, and so no move of a run does (spec/70_reset_and_hazards.md R166). -/
def Obligations.MovesKeepInvariant : Prop :=
  (∀ s t : State, s.Inv → Move s t → t.Inv) ∧ ∀ s : State, Reachable s → s.Inv

/-! ## Laws across instructions -/

/-- A return reached with the stack as the call left it continues at the instruction after the call, with the stack pointer
of before the call (spec/41_control_flow.md R81, R83; the document's example E6). -/
def Obligations.ReturnUndoesCall : Prop :=
  ∀ (s t u : State) (nnn : Addr12), exec (.call nnn) s = .next t → u.stack = t.stack → u.sp = t.sp →
    ∃ v, exec .ret u = .next v ∧ v.pc = s.pc + 2 ∧ v.sp = s.sp

/-- A register load from where a register store put them gives the registers back, whatever happened to the registers
between (spec/43_index_memory.md R114, R115). -/
def Obligations.LoadUndoesStore : Prop :=
  ∀ (s t u : State) (x : RegIdx), exec (.stRegs x) s = .next t → (∀ a, u.byteAt a = t.byteAt a) →
    u.index = s.index → ∃ v, exec (.ldRegs x) u = .next v ∧ ∀ r : RegIdx, r.toNat ≤ x.toNat → v.reg r = s.reg r

/-- An instruction stored by one step is what the very next step fetches (spec/20_memory.md R40, derived there;
decision D26). -/
def Obligations.StoredInstructionIsFetchedNext : Prop :=
  ∀ (s t : State) (x : RegIdx), s.nextInstr = some (.stRegs x) → s.index = s.pc + 2 → 1 ≤ x.toNat → step s = .next t →
    t.fetch = .ok (wordOfBytes (s.reg 0) (s.reg 1))

/-- Drawing the same sprite at the same place twice restores the framebuffer, whatever happened to the registers between the
two draws and whichever registers name the place, V[0xF] included: a draw that completes, then any state with its screen, its
memory and its I, and coordinates equal to the first draw's. The second draw completes and collides exactly when a set sprite
bit lands on a pixel that was clear before the first; where the first collided with nothing, exactly when the sprite has any
1 bit. This follows the loop and the flag sentence of spec/40_display.md R71, and departs from its closing sentence, which says
the last without its premise (log 20). Which pixels a sprite's bits land on is State.spriteBit, whose bit order, and with it
this flag, is PRESUMED (decision D29, log 15); that coordinates are read before V[0xF] is written is decision D7 (log 6); that
the rectangle is on the screen is decision D6 (log 10). -/
def Obligations.DrawingTwiceRestores : Prop :=
  ∀ (s t u : State) (x y x' y' : RegIdx) (n : Nibble), exec (.drw x y n) s = .next t →
    u.fb = t.fb → (∀ a, u.byteAt a = t.byteAt a) → u.index = t.index → u.reg x' = s.reg x → u.reg y' = s.reg y →
    ∃ v, exec (.drw x' y' n) u = .next v ∧ v.fb = s.fb ∧
      (v.reg vf = 1 ↔ ∃ cx cy, cx < 64 ∧ cy < 32 ∧ s.fbAt (cy * 64 + cx) = false ∧
        s.spriteBit (s.reg x).toNat (s.reg y).toNat n.toNat cx cy = true) ∧
      (t.reg vf = 0 → (v.reg vf = 1 ↔ ∃ cx cy, cx < 64 ∧ cy < 32 ∧
        s.spriteBit (s.reg x).toNat (s.reg y).toNat n.toNat cx cy = true))

/-- From a self-jump a step completes, pc stays, and the next state is at the self-jump again while the timers count down
(spec/70_reset_and_hazards.md R171, decision D31, log 18). -/
def Obligations.SelfJumpStays : Prop :=
  ∀ s : State, s.AtSelfJump → ∃ t, step s = .next t ∧ t.pc = s.pc ∧ t.AtSelfJump ∧
    KeepsAllBut [.cur, .out, .dt, .st] s t

/-! ## Display instructions -/

/-- CLS clears every pixel, requests a redraw and advances pc by 2; V[0xF] and everything else stay
(spec/40_display.md R70; that it always requests a redraw is decision D14, log 13). -/
def Obligations.ClsClearsScreen : Prop :=
  ∀ s : State, ∃ t, exec .cls s = .next t ∧ (∀ k, k < 2048 → t.fbAt k = false) ∧ t.redraw = true ∧ t.pc = s.pc + 2 ∧
    KeepsAllBut [.pc, .fb, .redraw] s t

/-- DRW on screen and inside memory, or with no rows, completes: each pixel is inverted where a set sprite bit lands on it,
V[0xF] is 1 exactly when a set pixel was cleared and else 0, a redraw is requested, and I, memory and the other
registers stay (spec/40_display.md R71, R72; decisions D6, D7, D14, D25, D29, log 6, 10, 13, 15). -/
def Obligations.DrwDrawsSprite : Prop :=
  ∀ (s : State) (x y : RegIdx) (n : Nibble),
    (n = 0 ∨ (s.index.toNat + n.toNat ≤ 4096 ∧ (s.reg x).toNat + 7 ≤ 63 ∧ (s.reg y).toNat + n.toNat ≤ 32)) →
    ∃ t, exec (.drw x y n) s = .next t ∧
      (∀ cx cy, cx < 64 → cy < 32 → t.fbAt (cy * 64 + cx) =
        (s.fbAt (cy * 64 + cx) ^^ s.spriteBit (s.reg x).toNat (s.reg y).toNat n.toNat cx cy)) ∧
      (t.reg vf = 1 ∨ t.reg vf = 0) ∧
      (t.reg vf = 1 ↔ ∃ cx cy, cx < 64 ∧ cy < 32 ∧ s.fbAt (cy * 64 + cx) = true ∧
        s.spriteBit (s.reg x).toNat (s.reg y).toNat n.toNat cx cy = true) ∧
      (∀ r, r ≠ vf → t.reg r = s.reg r) ∧ t.redraw = true ∧ t.pc = s.pc + 2 ∧
      KeepsAllBut [.pc, .regs, .fb, .redraw] s t

/-! ## Control transfer and skips -/

/-- RET with entries on the stack: sp goes down and pc is the popped address plus 2; the entry is not erased. With none it is
StackUnderflow (spec/41_control_flow.md R81; decision D3, log 10). -/
def Obligations.RetReturns : Prop :=
  ∀ s : State,
    (∀ k : Fin 16, s.sp.val = k.val + 1 → ∃ t, exec .ret s = .next t ∧ t.sp.val = k.val ∧ t.pc = s.stack[k] + 2 ∧
      KeepsAllBut [.pc, .sp] s t) ∧
    (s.sp = 0 → exec .ret s = .fault (.stackUnderflow s.pc))

/-- JP sets pc to the address literal, odd ones included, and changes nothing else; to its own address it is a loop in which
the timers tick; to 0xFFF the next step is FetchOutOfBounds; its words are those of mask and match
(spec/41_control_flow.md R82). -/
def Obligations.JpSetsPc : Prop :=
  (∀ (s : State) (nnn : Addr12),
    (∃ t, exec (.jp nnn) s = .next t ∧ t.pc.toNat = nnn.toNat ∧ KeepsAllBut [.pc] s t) ∧
    (s.nextInstr = some (.jp nnn) → ∃ t, step s = .next t ∧ t.dt.toNat = s.dt.toNat - 1 ∧ t.st.toNat = s.st.toNat - 1 ∧
      (nnn.toNat = s.pc.toNat → t.pc = s.pc ∧ t.nextInstr = some (.jp nnn)) ∧
      (nnn = 0xFFF → step t = .fault (.fetchOutOfBounds 0xFFF)))) ∧
  ReadsAs 0xF000 0x1000 (fun w => .jp (nnnField w))

/-- CALL below depth 16 pushes its own address, raises sp and jumps; the other entries stay. At depth 16 it is StackOverflow
(spec/41_control_flow.md R83; decision D3, log 10). -/
def Obligations.CallPushesAndJumps : Prop :=
  ∀ (s : State) (nnn : Addr12),
    (∀ k : Fin 16, s.sp.val = k.val → ∃ t, exec (.call nnn) s = .next t ∧ t.stack[k] = s.pc ∧
      (∀ j : Fin 16, j ≠ k → t.stack[j] = s.stack[j]) ∧ t.sp.val = k.val + 1 ∧ t.pc.toNat = nnn.toNat ∧
      KeepsAllBut [.pc, .stack, .sp] s t) ∧
    (s.sp = 16 → exec (.call nnn) s = .fault (.stackOverflow s.pc))

/-- SE and SNE with a byte: pc advances by 4 when V[x] equals (differs from) `kk`, else by 2, and nothing else changes, `x` of
0xF included; their words are those of mask and match (spec/41_control_flow.md R84, R85). -/
def Obligations.ByteSkips : Prop :=
  (∀ (s : State) (x : RegIdx) (kk : Byte),
    (∃ t, exec (.seImm x kk) s = .next t ∧ t.pc = s.pc + (if s.reg x = kk then 4 else 2) ∧ KeepsAllBut [.pc] s t) ∧
    (∃ t, exec (.sneImm x kk) s = .next t ∧ t.pc = s.pc + (if s.reg x = kk then 2 else 4) ∧ KeepsAllBut [.pc] s t)) ∧
  ReadsAs 0xF000 0x3000 (fun w => .seImm (xField w) (kkField w)) ∧
  ReadsAs 0xF000 0x4000 (fun w => .sneImm (xField w) (kkField w))

/-- SE and SNE with a register: pc advances by 4 when V[x] equals (differs from) V[y], else by 2, and nothing else changes;
with `x == y` SE always and SNE never skips. Their words need a last nibble of 0: with any other they are unknown
(spec/41_control_flow.md R86, R87; the last clause is decision D2, log 7). -/
def Obligations.RegisterSkips : Prop :=
  (∀ (s : State) (x y : RegIdx),
    (∃ t, exec (.seReg x y) s = .next t ∧ t.pc = s.pc + (if s.reg x = s.reg y then 4 else 2) ∧
      (x = y → t.pc = s.pc + 4) ∧ KeepsAllBut [.pc] s t) ∧
    (∃ t, exec (.sneReg x y) s = .next t ∧ t.pc = s.pc + (if s.reg x = s.reg y then 2 else 4) ∧
      (x = y → t.pc = s.pc + 2) ∧ KeepsAllBut [.pc] s t)) ∧
  ∀ w : Word, (opField w = 5 ∨ opField w = 9) → nField w ≠ 0 → decodeWord w = none

/-- JP V0: pc is the 16-bit sum of the literal and V[0], which is at most 0x10FE, never wraps and is not reduced modulo 4096;
the register is V[0] whatever the literal's high nibble; after a sum of 0xFFF or more the next step is FetchOutOfBounds; its
words are those of mask and match (spec/41_control_flow.md R88). -/
def Obligations.JpV0AddsV0 : Prop :=
  (∀ (s : State) (nnn : Addr12),
    (∃ t, exec (.jpV0 nnn) s = .next t ∧ t.pc.toNat = nnn.toNat + (s.reg 0).toNat ∧ t.pc.toNat ≤ 0x10FE ∧
      KeepsAllBut [.pc] s t) ∧
    (s.nextInstr = some (.jpV0 nnn) → 0xFFF ≤ nnn.toNat + (s.reg 0).toNat →
      ∃ t, step s = .next t ∧ step t = .fault (.fetchOutOfBounds t.pc))) ∧
  ReadsAs 0xF000 0xB000 (fun w => .jpV0 (nnnField w))

/-! ## Arithmetic, logic, shifts, random -/

/-- LD with a byte and LD with a register write their destination only and advance pc by 2; V[0xF] only when it is the
destination; their words are those of mask and match (spec/42_alu.md R90, R92). -/
def Obligations.LoadsWriteDestination : Prop :=
  (∀ (s : State) (x y : RegIdx) (kk : Byte),
    (∃ t, exec (.ldImm x kk) s = .next t ∧ t.reg x = kk ∧ (∀ r, r ≠ x → t.reg r = s.reg r) ∧ t.pc = s.pc + 2 ∧
      KeepsAllBut [.pc, .regs] s t) ∧
    (∃ t, exec (.ldReg x y) s = .next t ∧ t.reg x = s.reg y ∧ (∀ r, r ≠ x → t.reg r = s.reg r) ∧ t.pc = s.pc + 2 ∧
      KeepsAllBut [.pc, .regs] s t)) ∧
  ReadsAs 0xF000 0x6000 (fun w => .ldImm (xField w) (kkField w)) ∧
  ReadsAs 0xF00F 0x8000 (fun w => .ldReg (xField w) (yField w))

/-- ADD with a byte: V[x] is the sum modulo 256, the carry is lost, V[0xF] is written only when it is the destination; its
words are those of mask and match (spec/42_alu.md R91). -/
def Obligations.AddImmAddsWithoutCarry : Prop :=
  (∀ (s : State) (x : RegIdx) (kk : Byte), ∃ t, exec (.addImm x kk) s = .next t ∧
    (t.reg x).toNat = ((s.reg x).toNat + kk.toNat) % 256 ∧ (∀ r, r ≠ x → t.reg r = s.reg r) ∧ t.pc = s.pc + 2 ∧
    KeepsAllBut [.pc, .regs] s t) ∧
  ReadsAs 0xF000 0x7000 (fun w => .addImm (xField w) (kkField w))

/-- OR, AND, XOR: V[x] gets the result and then V[0xF] is 0, which is what it ends as when `x` is 0xF
(spec/42_alu.md R93 to R95; the order is decision D1, log 1). -/
def Obligations.LogicWritesResultThenClearsFlag : Prop :=
  ∀ (s : State) (x y : RegIdx) (i : Instr) (v : Byte),
    ((i = .or x y ∧ v = s.reg x ||| s.reg y) ∨ (i = .and x y ∧ v = s.reg x &&& s.reg y) ∨
      (i = .xor x y ∧ v = s.reg x ^^^ s.reg y)) →
    ∃ t, exec i s = .next t ∧ (x ≠ vf → t.reg x = v) ∧ t.reg vf = 0 ∧
      (∀ r, r ≠ x → r ≠ vf → t.reg r = s.reg r) ∧ t.pc = s.pc + 2 ∧ KeepsAllBut [.pc, .regs] s t

/-- ADD of registers: the sum of the old values modulo 256 goes to V[x], the carry to V[0xF] unless that is `x`, where the
result is written last (spec/42_alu.md R96, R103; the order is decision D1, log 1). -/
def Obligations.AddRegAddsWithCarry : Prop :=
  ∀ (s : State) (x y : RegIdx), ∃ t, exec (.addReg x y) s = .next t ∧
    (t.reg x).toNat = ((s.reg x).toNat + (s.reg y).toNat) % 256 ∧
    (x ≠ vf → t.reg vf = if 255 < (s.reg x).toNat + (s.reg y).toNat then 1 else 0) ∧
    (∀ r, r ≠ x → r ≠ vf → t.reg r = s.reg r) ∧ t.pc = s.pc + 2 ∧ KeepsAllBut [.pc, .regs] s t

/-- SUB: V[0xF] is the no-borrow flag `f` of the old values; then V[x] is the difference modulo 256 of the registers read
again, in which an operand V[0xF] is `f` (spec/42_alu.md R97, R103; the order is decision D1, log 1). -/
def Obligations.SubSubtractsAfterFlag : Prop :=
  ∀ (s : State) (x y : RegIdx) (f : Byte), f = (if (s.reg x).toNat < (s.reg y).toNat then 0 else 1) →
    ∃ t, exec (.sub x y) s = .next t ∧
      (t.reg x).toNat = ((if x = vf then f else s.reg x).toNat + 256 - (if y = vf then f else s.reg y).toNat) % 256 ∧
      (x ≠ vf → t.reg vf = f) ∧ (∀ r, r ≠ x → r ≠ vf → t.reg r = s.reg r) ∧ t.pc = s.pc + 2 ∧
      KeepsAllBut [.pc, .regs] s t

/-- SHR: V[0xF] is bit 0 of V[y]; then V[x] is V[y], read again, halved; the old V[x] is not used
(spec/42_alu.md R98, R103; the order is decision D1, log 1). -/
def Obligations.ShrShiftsSourceRight : Prop :=
  ∀ (s : State) (x y : RegIdx) (f : Byte), f.toNat = (s.reg y).toNat % 2 →
    ∃ t, exec (.shr x y) s = .next t ∧ (t.reg x).toNat = (if y = vf then f else s.reg y).toNat / 2 ∧
      (x ≠ vf → t.reg vf = f) ∧ (∀ r, r ≠ x → r ≠ vf → t.reg r = s.reg r) ∧ t.pc = s.pc + 2 ∧
      KeepsAllBut [.pc, .regs] s t

/-- SUBN: V[0xF] is the no-borrow flag `f` of V[y] - V[x]; then V[x] is that difference modulo 256 of the registers read
again (spec/42_alu.md R99, R103; the order is decision D1, log 1). -/
def Obligations.SubnSubtractsReversedAfterFlag : Prop :=
  ∀ (s : State) (x y : RegIdx) (f : Byte), f = (if (s.reg y).toNat < (s.reg x).toNat then 0 else 1) →
    ∃ t, exec (.subn x y) s = .next t ∧
      (t.reg x).toNat = ((if y = vf then f else s.reg y).toNat + 256 - (if x = vf then f else s.reg x).toNat) % 256 ∧
      (x ≠ vf → t.reg vf = f) ∧ (∀ r, r ≠ x → r ≠ vf → t.reg r = s.reg r) ∧ t.pc = s.pc + 2 ∧
      KeepsAllBut [.pc, .regs] s t

/-- SHL: V[0xF] is bit 7 of V[y]; then V[x] is V[y], read again, doubled modulo 256; the old V[x] is not used
(spec/42_alu.md R100, R103; the order is decision D1, log 1). -/
def Obligations.ShlShiftsSourceLeft : Prop :=
  ∀ (s : State) (x y : RegIdx) (f : Byte), f.toNat = (s.reg y).toNat / 128 →
    ∃ t, exec (.shl x y) s = .next t ∧ (t.reg x).toNat = (if y = vf then f else s.reg y).toNat * 2 % 256 ∧
      (x ≠ vf → t.reg vf = f) ∧ (∀ r, r ≠ x → r ≠ vf → t.reg r = s.reg r) ∧ t.pc = s.pc + 2 ∧
      KeepsAllBut [.pc, .regs] s t

/-- The final values when both operands of a flag-writing instruction are V[0xF] (spec/42_alu.md R103, last column, derived
there; decision D1, log 1). -/
def Obligations.FlagRegisterAsBothOperands : Prop :=
  ∀ (s t : State) (i : Instr), exec i s = .next t →
    ((i = .or vf vf ∨ i = .and vf vf ∨ i = .xor vf vf ∨ i = .sub vf vf ∨ i = .shr vf vf ∨
        i = .subn vf vf) → t.reg vf = 0) ∧
    (i = .addReg vf vf → (t.reg vf).toNat = 2 * (s.reg vf).toNat % 256) ∧
    (i = .shl vf vf → (t.reg vf).toNat = 2 * ((s.reg vf).toNat / 128))

/-- RND: V[x] is the mask ANDed with the byte of the random source, so that no bit outside the mask is set; the next draw is
another. It holds whatever the source answers (spec/42_alu.md R101; decision D15, log 2). -/
def Obligations.RndMasksRandomByte : Prop :=
  ∀ (s : State) (x : RegIdx) (kk : Byte), ∃ t, exec (.rnd x kk) s = .next t ∧
    t.reg x = kk &&& Config.randomByte s.draws ∧ t.reg x &&& ~~~kk = 0 ∧ t.draws = s.draws + 1 ∧
    (∀ r, r ≠ x → t.reg r = s.reg r) ∧ t.pc = s.pc + 2 ∧ KeepsAllBut [.pc, .regs, .draws] s t

/-! ## Index register and memory transfers -/

/-- LD I: I is the literal. ADD I: I is the sum with V[x] modulo 65536, kept above 0xFFF without an error, and V[0xF] is not
written; their words are those of mask and match (spec/43_index_memory.md R110, R111). -/
def Obligations.IndexLoadsAndAdds : Prop :=
  (∀ (s : State) (nnn : Addr12), ∃ t, exec (.ldI nnn) s = .next t ∧ t.index.toNat = nnn.toNat ∧ t.pc = s.pc + 2 ∧
    KeepsAllBut [.pc, .index] s t) ∧
  (∀ (s : State) (x : RegIdx), ∃ t, exec (.addI x) s = .next t ∧
    t.index.toNat = (s.index.toNat + (s.reg x).toNat) % 65536 ∧ t.pc = s.pc + 2 ∧ KeepsAllBut [.pc, .index] s t) ∧
  ReadsAs 0xF000 0xA000 (fun w => .ldI (nnnField w)) ∧ ReadsAs 0xF0FF 0xF01E (fun w => .addI (xField w))

/-- LD F: I is five times the whole of V[x], plus the configured base, which for this hardware is 0
(spec/43_index_memory.md R112; the base is decision D8, log 3). -/
def Obligations.LdFPointsAtFiveTimesVx : Prop :=
  ∀ (s : State) (x : RegIdx), ∃ t, exec (.ldF x) s = .next t ∧ t.index.toNat = 5 * (s.reg x).toNat ∧ t.pc = s.pc + 2 ∧
    KeepsAllBut [.pc, .index] s t

/-- LD B inside memory stores the hundreds, tens and ones digits at I, I+1, I+2; I and every other byte stay
(spec/43_index_memory.md R113; the range check is decision D4, log 10). -/
def Obligations.LdBStoresDigits : Prop :=
  ∀ (s : State) (x : RegIdx), s.index.toNat + 2 < 4096 → ∃ t, exec (.ldB x) s = .next t ∧
    (t.byteAt s.index.toNat).toNat = (s.reg x).toNat / 100 ∧
    (t.byteAt (s.index.toNat + 1)).toNat = (s.reg x).toNat / 10 % 10 ∧
    (t.byteAt (s.index.toNat + 2)).toNat = (s.reg x).toNat % 10 ∧
    (∀ a, a < s.index.toNat ∨ s.index.toNat + 2 < a → t.byteAt a = s.byteAt a) ∧ t.pc = s.pc + 2 ∧
    KeepsAllBut [.pc, .mem] s t

/-- ST_REGS inside memory stores V[k] at I + k for every k up to x and advances I past them; every other byte stays, below
0x200 as above (spec/43_index_memory.md R114; decisions D4, D12, log 10 and 17). -/
def Obligations.StRegsStoresRange : Prop :=
  ∀ (s : State) (x : RegIdx), s.index.toNat + x.toNat < 4096 → ∃ t, exec (.stRegs x) s = .next t ∧
    (∀ r : RegIdx, r.toNat ≤ x.toNat → t.byteAt (s.index.toNat + r.toNat) = s.reg r) ∧
    (∀ a, a < s.index.toNat ∨ s.index.toNat + x.toNat < a → t.byteAt a = s.byteAt a) ∧
    t.index.toNat = s.index.toNat + x.toNat + 1 ∧ t.pc = s.pc + 2 ∧ KeepsAllBut [.pc, .mem, .index] s t

/-- LD_REGS inside memory loads V[k] from I + k for every k up to x and advances I past them; the registers above stay
(spec/43_index_memory.md R115; decision D4, log 10). -/
def Obligations.LdRegsLoadsRange : Prop :=
  ∀ (s : State) (x : RegIdx), s.index.toNat + x.toNat < 4096 → ∃ t, exec (.ldRegs x) s = .next t ∧
    (∀ r : RegIdx, r.toNat ≤ x.toNat → t.reg r = s.byteAt (s.index.toNat + r.toNat)) ∧
    (∀ r : RegIdx, x.toNat < r.toNat → t.reg r = s.reg r) ∧
    t.index.toNat = s.index.toNat + x.toNat + 1 ∧ t.pc = s.pc + 2 ∧ KeepsAllBut [.pc, .regs, .index] s t

/-! ## Keypad and timers -/

/-- SKP and SKNP with V[x] at most 15: pc advances by 4 when the key is pressed (not pressed), else by 2. Above 15 they are
KeypadIndexOutOfBounds (spec/44_keypad_timers.md R120, R121; decision D5, log 10). -/
def Obligations.KeySkips : Prop :=
  ∀ (s : State) (x : RegIdx),
    ((s.reg x).toNat ≤ 15 →
      (∃ t, exec (.skp x) s = .next t ∧ t.pc = s.pc + (if s.key (s.reg x).toNat = true then 4 else 2) ∧
        KeepsAllBut [.pc] s t) ∧
      (∃ t, exec (.sknp x) s = .next t ∧ t.pc = s.pc + (if s.key (s.reg x).toNat = true then 2 else 4) ∧
        KeepsAllBut [.pc] s t)) ∧
    (15 < (s.reg x).toNat → exec (.skp x) s = .fault (.keypadIndexOutOfBounds (s.reg x)) ∧
      exec (.sknp x) s = .fault (.keypadIndexOutOfBounds (s.reg x)))

/-- LD from the delay timer: V[x] is the value DT holds before this step's tick; its words are those of mask and match
(spec/44_keypad_timers.md R122). -/
def Obligations.LdVxDtReadsDelay : Prop :=
  (∀ (s : State) (x : RegIdx),
    (∃ t, exec (.ldVxDt x) s = .next t ∧ t.reg x = s.dt ∧ (∀ r, r ≠ x → t.reg r = s.reg r) ∧ t.pc = s.pc + 2 ∧
      KeepsAllBut [.pc, .regs] s t) ∧
    (s.nextInstr = some (.ldVxDt x) → ∃ t, step s = .next t ∧ t.reg x = s.dt)) ∧
  ReadsAs 0xF0FF 0xF007 (fun w => .ldVxDt (xField w))

/-- The key wait: with a key down, V[x] is the lowest such index and pc advances by 2; with none, nothing changes, pc
included, and the next step runs it again (spec/44_keypad_timers.md R123; by level, decision D23, log 16). -/
def Obligations.KeyWait : Prop :=
  ∀ (s : State) (x : RegIdx),
    (∀ k : RegIdx, s.key k.toNat = true → (∀ j, j < k.toNat → s.key j = false) →
      ∃ t, exec (.ldVxK x) s = .next t ∧ (t.reg x).toNat = k.toNat ∧ (∀ r, r ≠ x → t.reg r = s.reg r) ∧
        t.pc = s.pc + 2 ∧ KeepsAllBut [.pc, .regs] s t) ∧
    ((∀ k, k < 16 → s.key k = false) → exec (.ldVxK x) s = .next s ∧
      (s.nextInstr = some (.ldVxK x) → ∃ t, step s = .next t ∧ t.pc = s.pc ∧ t.nextInstr = some (.ldVxK x)))

/-- LD to the delay timer and LD to the sound timer write the timer in the execute phase and advance pc by 2
(spec/44_keypad_timers.md R124, R125). -/
def Obligations.TimerLoads : Prop :=
  ∀ (s : State) (x : RegIdx),
    (∃ t, exec (.ldDtVx x) s = .next t ∧ t.dt = s.reg x ∧ t.pc = s.pc + 2 ∧ KeepsAllBut [.pc, .dt] s t) ∧
    (∃ t, exec (.ldStVx x) s = .next t ∧ t.st = s.reg x ∧ t.pc = s.pc + 2 ∧ KeepsAllBut [.pc, .st] s t)

/-! ## The host -/

/-- `reset()`: every item at its value, from any state, the font bytes at 0x050 and zero in every other byte
(spec/10_state.md R25, R26, spec/70_reset_and_hazards.md R160; I and `cur` are decision D9, log 5; the font bytes log 4). -/
def Obligations.ResetValues : Prop :=
  ∀ s : State, s.hostReset.pc = 0x200 ∧ s.hostReset.sp = 0 ∧ s.hostReset.index = 0 ∧ s.hostReset.cur = 0 ∧
    s.hostReset.dt = 0 ∧ s.hostReset.st = 0 ∧ s.hostReset.redraw = true ∧
    s.hostReset.out = { beep := false, diagnostic := none } ∧
    (∀ r, s.hostReset.reg r = 0) ∧ (∀ k : Fin 16, s.hostReset.stack[k] = 0) ∧ (∀ k, k < 16 → s.hostReset.key k = false) ∧
    (∀ k, k < 2048 → s.hostReset.fbAt k = false) ∧ Config.fontset.length = 80 ∧
    (∀ k, k < 80 → s.hostReset.byteAt (0x050 + k) = Config.fontset.getD k 0) ∧
    (∀ a, a < 0x050 ∨ 0x0A0 ≤ a → s.hostReset.byteAt a = 0)

/-- `load_program`: up to 3584 bytes are copied to 0x200 and nothing else changes; a longer program is rejected
(spec/70_reset_and_hazards.md R161). -/
def Obligations.LoadProgramCopies : Prop :=
  ∀ (s : State) (bytes : List Byte),
    (bytes.length ≤ 3584 → ∃ t, s.loadProgram bytes = .ok t ∧
      (∀ k, k < bytes.length → t.byteAt (0x200 + k) = bytes.getD k 0) ∧
      (∀ a, a < 0x200 ∨ 0x200 + bytes.length ≤ a → t.byteAt a = s.byteAt a) ∧ KeepsAllBut [.mem] s t) ∧
    (3584 < bytes.length → s.loadProgram bytes = .error .programTooLarge)

/-- `set_key` writes one flag and nothing else, and has no move for an index above 15; consuming a frame clears the redraw
flag and nothing else (spec/70_reset_and_hazards.md R163, R164; decision D20, log 18). -/
def Obligations.HostWritesKeysAndRedraw : Prop :=
  ∀ (s : State) (index : Nat) (pressed : Bool),
    (index < 16 → ∃ t, s.setKey index pressed = some t ∧ t.key index = pressed ∧
      (∀ k, k ≠ index → t.key k = s.key k) ∧ KeepsAllBut [.keys] s t) ∧
    (16 ≤ index → s.setKey index pressed = none) ∧
    s.clearRedraw.redraw = false ∧ KeepsAllBut [.redraw] s s.clearRedraw
end

