-- ==== Sys2Proof/Laws/State.lean ====
section
/-! SUPPORT. What each update of the state does to each of its fields, true by definition. -/

namespace Sys2Proof.Machine

variable (s : State)

/-! store -/

@[simp] theorem State.store_mem (base : Nat) (bs : List Byte) : (s.store base bs).mem = s.mem.writeList base bs := rfl
@[simp] theorem State.store_regs (base : Nat) (bs : List Byte) : (s.store base bs).regs = s.regs := rfl
@[simp] theorem State.store_index (base : Nat) (bs : List Byte) : (s.store base bs).index = s.index := rfl
@[simp] theorem State.store_pc (base : Nat) (bs : List Byte) : (s.store base bs).pc = s.pc := rfl
@[simp] theorem State.store_stack (base : Nat) (bs : List Byte) : (s.store base bs).stack = s.stack := rfl
@[simp] theorem State.store_sp (base : Nat) (bs : List Byte) : (s.store base bs).sp = s.sp := rfl
@[simp] theorem State.store_dt (base : Nat) (bs : List Byte) : (s.store base bs).dt = s.dt := rfl
@[simp] theorem State.store_st (base : Nat) (bs : List Byte) : (s.store base bs).st = s.st := rfl
@[simp] theorem State.store_keys (base : Nat) (bs : List Byte) : (s.store base bs).keys = s.keys := rfl
@[simp] theorem State.store_fb (base : Nat) (bs : List Byte) : (s.store base bs).fb = s.fb := rfl
@[simp] theorem State.store_redraw (base : Nat) (bs : List Byte) : (s.store base bs).redraw = s.redraw := rfl
@[simp] theorem State.store_cur (base : Nat) (bs : List Byte) : (s.store base bs).cur = s.cur := rfl
@[simp] theorem State.store_out (base : Nat) (bs : List Byte) : (s.store base bs).out = s.out := rfl
@[simp] theorem State.store_draws (base : Nat) (bs : List Byte) : (s.store base bs).draws = s.draws := rfl
@[simp] theorem State.store_reg (base : Nat) (bs : List Byte) (r : RegIdx) : (s.store base bs).reg r = s.reg r := rfl

/-! setReg -/

@[simp] theorem State.setReg_mem (x : RegIdx) (v : Byte) : (s.setReg x v).mem = s.mem := rfl
@[simp] theorem State.setReg_regs (x : RegIdx) (v : Byte) : (s.setReg x v).regs = s.regs.set x.toNat v x.isLt := rfl
@[simp] theorem State.setReg_index (x : RegIdx) (v : Byte) : (s.setReg x v).index = s.index := rfl
@[simp] theorem State.setReg_pc (x : RegIdx) (v : Byte) : (s.setReg x v).pc = s.pc := rfl
@[simp] theorem State.setReg_stack (x : RegIdx) (v : Byte) : (s.setReg x v).stack = s.stack := rfl
@[simp] theorem State.setReg_sp (x : RegIdx) (v : Byte) : (s.setReg x v).sp = s.sp := rfl
@[simp] theorem State.setReg_dt (x : RegIdx) (v : Byte) : (s.setReg x v).dt = s.dt := rfl
@[simp] theorem State.setReg_st (x : RegIdx) (v : Byte) : (s.setReg x v).st = s.st := rfl
@[simp] theorem State.setReg_keys (x : RegIdx) (v : Byte) : (s.setReg x v).keys = s.keys := rfl
@[simp] theorem State.setReg_fb (x : RegIdx) (v : Byte) : (s.setReg x v).fb = s.fb := rfl
@[simp] theorem State.setReg_redraw (x : RegIdx) (v : Byte) : (s.setReg x v).redraw = s.redraw := rfl
@[simp] theorem State.setReg_cur (x : RegIdx) (v : Byte) : (s.setReg x v).cur = s.cur := rfl
@[simp] theorem State.setReg_out (x : RegIdx) (v : Byte) : (s.setReg x v).out = s.out := rfl
@[simp] theorem State.setReg_draws (x : RegIdx) (v : Byte) : (s.setReg x v).draws = s.draws := rfl
@[simp] theorem State.setReg_byteAt (x : RegIdx) (v : Byte) (i : Nat) : (s.setReg x v).byteAt i = s.byteAt i := rfl

/-! advance -/

@[simp] theorem State.advance_mem (k : Word) : (s.advance k).mem = s.mem := rfl
@[simp] theorem State.advance_regs (k : Word) : (s.advance k).regs = s.regs := rfl
@[simp] theorem State.advance_index (k : Word) : (s.advance k).index = s.index := rfl
@[simp] theorem State.advance_pc (k : Word) : (s.advance k).pc = s.pc + k := rfl
@[simp] theorem State.advance_stack (k : Word) : (s.advance k).stack = s.stack := rfl
@[simp] theorem State.advance_sp (k : Word) : (s.advance k).sp = s.sp := rfl
@[simp] theorem State.advance_dt (k : Word) : (s.advance k).dt = s.dt := rfl
@[simp] theorem State.advance_st (k : Word) : (s.advance k).st = s.st := rfl
@[simp] theorem State.advance_keys (k : Word) : (s.advance k).keys = s.keys := rfl
@[simp] theorem State.advance_fb (k : Word) : (s.advance k).fb = s.fb := rfl
@[simp] theorem State.advance_redraw (k : Word) : (s.advance k).redraw = s.redraw := rfl
@[simp] theorem State.advance_cur (k : Word) : (s.advance k).cur = s.cur := rfl
@[simp] theorem State.advance_out (k : Word) : (s.advance k).out = s.out := rfl
@[simp] theorem State.advance_draws (k : Word) : (s.advance k).draws = s.draws := rfl
@[simp] theorem State.advance_byteAt (k : Word) (i : Nat) : (s.advance k).byteAt i = s.byteAt i := rfl
@[simp] theorem State.advance_reg (k : Word) (r : RegIdx) : (s.advance k).reg r = s.reg r := rfl

/-! jump -/

@[simp] theorem State.jump_mem (a : Word) : (s.jump a).mem = s.mem := rfl
@[simp] theorem State.jump_regs (a : Word) : (s.jump a).regs = s.regs := rfl
@[simp] theorem State.jump_index (a : Word) : (s.jump a).index = s.index := rfl
@[simp] theorem State.jump_pc (a : Word) : (s.jump a).pc = a := rfl
@[simp] theorem State.jump_stack (a : Word) : (s.jump a).stack = s.stack := rfl
@[simp] theorem State.jump_sp (a : Word) : (s.jump a).sp = s.sp := rfl
@[simp] theorem State.jump_dt (a : Word) : (s.jump a).dt = s.dt := rfl
@[simp] theorem State.jump_st (a : Word) : (s.jump a).st = s.st := rfl
@[simp] theorem State.jump_keys (a : Word) : (s.jump a).keys = s.keys := rfl
@[simp] theorem State.jump_fb (a : Word) : (s.jump a).fb = s.fb := rfl
@[simp] theorem State.jump_redraw (a : Word) : (s.jump a).redraw = s.redraw := rfl
@[simp] theorem State.jump_cur (a : Word) : (s.jump a).cur = s.cur := rfl
@[simp] theorem State.jump_out (a : Word) : (s.jump a).out = s.out := rfl
@[simp] theorem State.jump_draws (a : Word) : (s.jump a).draws = s.draws := rfl
@[simp] theorem State.jump_byteAt (a : Word) (i : Nat) : (s.jump a).byteAt i = s.byteAt i := rfl
@[simp] theorem State.jump_reg (a : Word) (r : RegIdx) : (s.jump a).reg r = s.reg r := rfl

/-! setIndex -/

@[simp] theorem State.setIndex_mem (v : Word) : (s.setIndex v).mem = s.mem := rfl
@[simp] theorem State.setIndex_regs (v : Word) : (s.setIndex v).regs = s.regs := rfl
@[simp] theorem State.setIndex_index (v : Word) : (s.setIndex v).index = v := rfl
@[simp] theorem State.setIndex_pc (v : Word) : (s.setIndex v).pc = s.pc := rfl
@[simp] theorem State.setIndex_stack (v : Word) : (s.setIndex v).stack = s.stack := rfl
@[simp] theorem State.setIndex_sp (v : Word) : (s.setIndex v).sp = s.sp := rfl
@[simp] theorem State.setIndex_dt (v : Word) : (s.setIndex v).dt = s.dt := rfl
@[simp] theorem State.setIndex_st (v : Word) : (s.setIndex v).st = s.st := rfl
@[simp] theorem State.setIndex_keys (v : Word) : (s.setIndex v).keys = s.keys := rfl
@[simp] theorem State.setIndex_fb (v : Word) : (s.setIndex v).fb = s.fb := rfl
@[simp] theorem State.setIndex_redraw (v : Word) : (s.setIndex v).redraw = s.redraw := rfl
@[simp] theorem State.setIndex_cur (v : Word) : (s.setIndex v).cur = s.cur := rfl
@[simp] theorem State.setIndex_out (v : Word) : (s.setIndex v).out = s.out := rfl
@[simp] theorem State.setIndex_draws (v : Word) : (s.setIndex v).draws = s.draws := rfl
@[simp] theorem State.setIndex_byteAt (v : Word) (i : Nat) : (s.setIndex v).byteAt i = s.byteAt i := rfl
@[simp] theorem State.setIndex_reg (v : Word) (r : RegIdx) : (s.setIndex v).reg r = s.reg r := rfl

/-! pushPc -/

@[simp] theorem State.pushPc_mem : (s.pushPc).mem = s.mem := rfl
@[simp] theorem State.pushPc_regs : (s.pushPc).regs = s.regs := rfl
@[simp] theorem State.pushPc_index : (s.pushPc).index = s.index := rfl
@[simp] theorem State.pushPc_pc : (s.pushPc).pc = s.pc := rfl
@[simp] theorem State.pushPc_stack : (s.pushPc).stack = s.stack.setIfInBounds s.sp.val s.pc := rfl
@[simp] theorem State.pushPc_sp : (s.pushPc).sp = s.sp + 1 := rfl
@[simp] theorem State.pushPc_dt : (s.pushPc).dt = s.dt := rfl
@[simp] theorem State.pushPc_st : (s.pushPc).st = s.st := rfl
@[simp] theorem State.pushPc_keys : (s.pushPc).keys = s.keys := rfl
@[simp] theorem State.pushPc_fb : (s.pushPc).fb = s.fb := rfl
@[simp] theorem State.pushPc_redraw : (s.pushPc).redraw = s.redraw := rfl
@[simp] theorem State.pushPc_cur : (s.pushPc).cur = s.cur := rfl
@[simp] theorem State.pushPc_out : (s.pushPc).out = s.out := rfl
@[simp] theorem State.pushPc_draws : (s.pushPc).draws = s.draws := rfl
@[simp] theorem State.pushPc_byteAt (i : Nat) : (s.pushPc).byteAt i = s.byteAt i := rfl
@[simp] theorem State.pushPc_reg (r : RegIdx) : (s.pushPc).reg r = s.reg r := rfl

/-! dropTop -/

@[simp] theorem State.dropTop_mem : (s.dropTop).mem = s.mem := rfl
@[simp] theorem State.dropTop_regs : (s.dropTop).regs = s.regs := rfl
@[simp] theorem State.dropTop_index : (s.dropTop).index = s.index := rfl
@[simp] theorem State.dropTop_pc : (s.dropTop).pc = s.pc := rfl
@[simp] theorem State.dropTop_stack : (s.dropTop).stack = s.stack := rfl
@[simp] theorem State.dropTop_sp : (s.dropTop).sp = s.sp - 1 := rfl
@[simp] theorem State.dropTop_dt : (s.dropTop).dt = s.dt := rfl
@[simp] theorem State.dropTop_st : (s.dropTop).st = s.st := rfl
@[simp] theorem State.dropTop_keys : (s.dropTop).keys = s.keys := rfl
@[simp] theorem State.dropTop_fb : (s.dropTop).fb = s.fb := rfl
@[simp] theorem State.dropTop_redraw : (s.dropTop).redraw = s.redraw := rfl
@[simp] theorem State.dropTop_cur : (s.dropTop).cur = s.cur := rfl
@[simp] theorem State.dropTop_out : (s.dropTop).out = s.out := rfl
@[simp] theorem State.dropTop_draws : (s.dropTop).draws = s.draws := rfl
@[simp] theorem State.dropTop_byteAt (i : Nat) : (s.dropTop).byteAt i = s.byteAt i := rfl
@[simp] theorem State.dropTop_reg (r : RegIdx) : (s.dropTop).reg r = s.reg r := rfl

/-! setScreen -/

@[simp] theorem State.setScreen_mem (d : Display) : (s.setScreen d).mem = s.mem := rfl
@[simp] theorem State.setScreen_regs (d : Display) : (s.setScreen d).regs = s.regs := rfl
@[simp] theorem State.setScreen_index (d : Display) : (s.setScreen d).index = s.index := rfl
@[simp] theorem State.setScreen_pc (d : Display) : (s.setScreen d).pc = s.pc := rfl
@[simp] theorem State.setScreen_stack (d : Display) : (s.setScreen d).stack = s.stack := rfl
@[simp] theorem State.setScreen_sp (d : Display) : (s.setScreen d).sp = s.sp := rfl
@[simp] theorem State.setScreen_dt (d : Display) : (s.setScreen d).dt = s.dt := rfl
@[simp] theorem State.setScreen_st (d : Display) : (s.setScreen d).st = s.st := rfl
@[simp] theorem State.setScreen_keys (d : Display) : (s.setScreen d).keys = s.keys := rfl
@[simp] theorem State.setScreen_fb (d : Display) : (s.setScreen d).fb = d := rfl
@[simp] theorem State.setScreen_redraw (d : Display) : (s.setScreen d).redraw = true := rfl
@[simp] theorem State.setScreen_cur (d : Display) : (s.setScreen d).cur = s.cur := rfl
@[simp] theorem State.setScreen_out (d : Display) : (s.setScreen d).out = s.out := rfl
@[simp] theorem State.setScreen_draws (d : Display) : (s.setScreen d).draws = s.draws := rfl
@[simp] theorem State.setScreen_byteAt (d : Display) (i : Nat) : (s.setScreen d).byteAt i = s.byteAt i := rfl
@[simp] theorem State.setScreen_reg (d : Display) (r : RegIdx) : (s.setScreen d).reg r = s.reg r := rfl

/-! setDelay -/

@[simp] theorem State.setDelay_mem (v : Byte) : (s.setDelay v).mem = s.mem := rfl
@[simp] theorem State.setDelay_regs (v : Byte) : (s.setDelay v).regs = s.regs := rfl
@[simp] theorem State.setDelay_index (v : Byte) : (s.setDelay v).index = s.index := rfl
@[simp] theorem State.setDelay_pc (v : Byte) : (s.setDelay v).pc = s.pc := rfl
@[simp] theorem State.setDelay_stack (v : Byte) : (s.setDelay v).stack = s.stack := rfl
@[simp] theorem State.setDelay_sp (v : Byte) : (s.setDelay v).sp = s.sp := rfl
@[simp] theorem State.setDelay_dt (v : Byte) : (s.setDelay v).dt = v := rfl
@[simp] theorem State.setDelay_st (v : Byte) : (s.setDelay v).st = s.st := rfl
@[simp] theorem State.setDelay_keys (v : Byte) : (s.setDelay v).keys = s.keys := rfl
@[simp] theorem State.setDelay_fb (v : Byte) : (s.setDelay v).fb = s.fb := rfl
@[simp] theorem State.setDelay_redraw (v : Byte) : (s.setDelay v).redraw = s.redraw := rfl
@[simp] theorem State.setDelay_cur (v : Byte) : (s.setDelay v).cur = s.cur := rfl
@[simp] theorem State.setDelay_out (v : Byte) : (s.setDelay v).out = s.out := rfl
@[simp] theorem State.setDelay_draws (v : Byte) : (s.setDelay v).draws = s.draws := rfl
@[simp] theorem State.setDelay_byteAt (v : Byte) (i : Nat) : (s.setDelay v).byteAt i = s.byteAt i := rfl
@[simp] theorem State.setDelay_reg (v : Byte) (r : RegIdx) : (s.setDelay v).reg r = s.reg r := rfl

/-! setSound -/

@[simp] theorem State.setSound_mem (v : Byte) : (s.setSound v).mem = s.mem := rfl
@[simp] theorem State.setSound_regs (v : Byte) : (s.setSound v).regs = s.regs := rfl
@[simp] theorem State.setSound_index (v : Byte) : (s.setSound v).index = s.index := rfl
@[simp] theorem State.setSound_pc (v : Byte) : (s.setSound v).pc = s.pc := rfl
@[simp] theorem State.setSound_stack (v : Byte) : (s.setSound v).stack = s.stack := rfl
@[simp] theorem State.setSound_sp (v : Byte) : (s.setSound v).sp = s.sp := rfl
@[simp] theorem State.setSound_dt (v : Byte) : (s.setSound v).dt = s.dt := rfl
@[simp] theorem State.setSound_st (v : Byte) : (s.setSound v).st = v := rfl
@[simp] theorem State.setSound_keys (v : Byte) : (s.setSound v).keys = s.keys := rfl
@[simp] theorem State.setSound_fb (v : Byte) : (s.setSound v).fb = s.fb := rfl
@[simp] theorem State.setSound_redraw (v : Byte) : (s.setSound v).redraw = s.redraw := rfl
@[simp] theorem State.setSound_cur (v : Byte) : (s.setSound v).cur = s.cur := rfl
@[simp] theorem State.setSound_out (v : Byte) : (s.setSound v).out = s.out := rfl
@[simp] theorem State.setSound_draws (v : Byte) : (s.setSound v).draws = s.draws := rfl
@[simp] theorem State.setSound_byteAt (v : Byte) (i : Nat) : (s.setSound v).byteAt i = s.byteAt i := rfl
@[simp] theorem State.setSound_reg (v : Byte) (r : RegIdx) : (s.setSound v).reg r = s.reg r := rfl

/-! drawn -/

@[simp] theorem State.drawn_mem : (s.drawn).mem = s.mem := rfl
@[simp] theorem State.drawn_regs : (s.drawn).regs = s.regs := rfl
@[simp] theorem State.drawn_index : (s.drawn).index = s.index := rfl
@[simp] theorem State.drawn_pc : (s.drawn).pc = s.pc := rfl
@[simp] theorem State.drawn_stack : (s.drawn).stack = s.stack := rfl
@[simp] theorem State.drawn_sp : (s.drawn).sp = s.sp := rfl
@[simp] theorem State.drawn_dt : (s.drawn).dt = s.dt := rfl
@[simp] theorem State.drawn_st : (s.drawn).st = s.st := rfl
@[simp] theorem State.drawn_keys : (s.drawn).keys = s.keys := rfl
@[simp] theorem State.drawn_fb : (s.drawn).fb = s.fb := rfl
@[simp] theorem State.drawn_redraw : (s.drawn).redraw = s.redraw := rfl
@[simp] theorem State.drawn_cur : (s.drawn).cur = s.cur := rfl
@[simp] theorem State.drawn_out : (s.drawn).out = s.out := rfl
@[simp] theorem State.drawn_draws : (s.drawn).draws = s.draws + 1 := rfl
@[simp] theorem State.drawn_byteAt (i : Nat) : (s.drawn).byteAt i = s.byteAt i := rfl
@[simp] theorem State.drawn_reg (r : RegIdx) : (s.drawn).reg r = s.reg r := rfl

/-! tick -/

@[simp] theorem State.tick_mem : (s.tick).mem = s.mem := rfl
@[simp] theorem State.tick_regs : (s.tick).regs = s.regs := rfl
@[simp] theorem State.tick_index : (s.tick).index = s.index := rfl
@[simp] theorem State.tick_pc : (s.tick).pc = s.pc := rfl
@[simp] theorem State.tick_stack : (s.tick).stack = s.stack := rfl
@[simp] theorem State.tick_sp : (s.tick).sp = s.sp := rfl
@[simp] theorem State.tick_dt : (s.tick).dt = (if s.dt = 0 then 0 else s.dt - 1) := rfl
@[simp] theorem State.tick_st : (s.tick).st = (if s.st = 0 then 0 else s.st - 1) := rfl
@[simp] theorem State.tick_keys : (s.tick).keys = s.keys := rfl
@[simp] theorem State.tick_fb : (s.tick).fb = s.fb := rfl
@[simp] theorem State.tick_redraw : (s.tick).redraw = s.redraw := rfl
@[simp] theorem State.tick_cur : (s.tick).cur = s.cur := rfl
@[simp] theorem State.tick_out : (s.tick).out = { s.out with beep := s.st == 1 } := rfl
@[simp] theorem State.tick_draws : (s.tick).draws = s.draws := rfl
@[simp] theorem State.tick_byteAt (i : Nat) : (s.tick).byteAt i = s.byteAt i := rfl
@[simp] theorem State.tick_reg (r : RegIdx) : (s.tick).reg r = s.reg r := rfl

end Sys2Proof.Machine
end

