-- ==== Sys2Proof/Laws/Memory.lean ====
section
/-! SUPPORT. Memory: a read after a write, the canonical form, and runs of bytes. -/

namespace Sys2Proof.Machine

@[simp] theorem Memory.read_nil (a : Nat) : Memory.read [] a = Memory.unlisted a := rfl

theorem Memory.unlisted_of_low {a : Nat} (h : a < Config.fontLoadBase) : Memory.unlisted a = 0 := by
  have : ¬ Config.fontLoadBase ≤ a := by omega
  simp [Memory.unlisted, this]

@[simp] theorem Memory.read_erase_same (m : Memory) (a : Nat) : (m.erase a).read a = Memory.unlisted a := by
  induction m with
  | nil => rfl
  | cons c m ih =>
    obtain ⟨k, c⟩ := c
    by_cases h : k = a
    · simp [Memory.erase, h, ih]
    · simp [Memory.erase, Memory.read, h, ih]

theorem Memory.read_erase_ne (m : Memory) {a i : Nat} (hi : i ≠ a) : (m.erase a).read i = m.read i := by
  induction m with
  | nil => rfl
  | cons c m ih =>
    obtain ⟨k, c⟩ := c
    by_cases h : k = a
    · simp [Memory.erase, Memory.read, h, Ne.symm hi, ih]
    · simp [Memory.erase, Memory.read, h, ih]

theorem Memory.read_cell_append (m : Memory) (a : Nat) (b : Byte) (i : Nat) (hm : m.read a = Memory.unlisted a) :
    Memory.read (Memory.cell a b ++ m) i = if i = a then b else m.read i := by
  unfold Memory.cell
  by_cases hi : i = a
  · subst hi
    split
    · rename_i h
      simp [h, hm]
    · simp [Memory.read]
  · split
    · simp
    · simp [Memory.read, Ne.symm hi]

theorem Memory.read_place (m : Memory) (a : Nat) (b : Byte) (i : Nat) (hm : m.read a = Memory.unlisted a)
    (hk : ∀ c, (a, c) ∉ m) : (m.place a b).read i = if i = a then b else m.read i := by
  induction m with
  | nil => simpa [Memory.place] using Memory.read_cell_append [] a b i rfl
  | cons c m ih =>
    obtain ⟨k, c⟩ := c
    have hka : k ≠ a := fun h => hk c (by simp [h])
    have hm' : Memory.read m a = Memory.unlisted a := by simpa [Memory.read, hka] using hm
    unfold Memory.place
    split
    · exact Memory.read_cell_append _ a b i hm
    · have h := ih hm' (fun c hc => hk c (List.mem_cons_of_mem _ hc))
      by_cases hi : k = i
      · subst hi
        simp [Memory.read, hka]
      · simp [Memory.read, hi, h]

theorem Memory.not_mem_erase (m : Memory) (a : Nat) (c : Byte) : (a, c) ∉ m.erase a := by
  induction m with
  | nil => simp [Memory.erase]
  | cons d m ih =>
    obtain ⟨k, d⟩ := d
    by_cases h : k = a
    · simpa [Memory.erase, h] using ih
    · simp [Memory.erase, h, ih, Ne.symm h]

/-- A read after a write: the byte written at its address, every other address as before. -/
theorem Memory.read_write (m : Memory) (a : Nat) (b : Byte) (i : Nat) :
    (m.write a b).read i = if i = a then b else m.read i := by
  rw [Memory.write, Memory.read_place _ a b i (Memory.read_erase_same m a) (Memory.not_mem_erase m a)]
  by_cases hi : i = a
  · simp [hi]
  · simp [hi, Memory.read_erase_ne m hi]

theorem Memory.wfFrom_cons {lo k : Nat} {b : Byte} {m : Memory} :
    Memory.wfFrom lo ((k, b) :: m) = true ↔
      lo ≤ k ∧ k < Config.memSize ∧ b ≠ Memory.unlisted k ∧ Memory.wfFrom (k + 1) m = true := by
  simp [Memory.wfFrom, and_assoc]

/-- A lower bound may be lowered. -/
theorem Memory.wfFrom_mono {lo lo' : Nat} {m : Memory} (h : lo ≤ lo') (hm : Memory.wfFrom lo' m = true) :
    Memory.wfFrom lo m = true := by
  cases m with
  | nil => rfl
  | cons c m =>
    obtain ⟨k, b⟩ := c
    rw [Memory.wfFrom_cons] at hm ⊢
    exact ⟨by omega, hm.2⟩

/-- Below its lower bound a canonical memory lists nothing. -/
theorem Memory.read_below {lo i : Nat} {m : Memory} (hm : Memory.wfFrom lo m = true) (h : i < lo) :
    m.read i = Memory.unlisted i := by
  induction m generalizing lo with
  | nil => rfl
  | cons c m ih =>
    obtain ⟨k, b⟩ := c
    rw [Memory.wfFrom_cons] at hm
    have : k ≠ i := by omega
    simp [Memory.read, this, ih hm.2.2.2 (by omega)]

theorem Memory.wfFrom_cell_append {lo a : Nat} {b : Byte} {m : Memory} (hlo : lo ≤ a) (ha : a < Config.memSize)
    (hm : Memory.wfFrom (a + 1) m = true) : Memory.wfFrom lo (Memory.cell a b ++ m) = true := by
  unfold Memory.cell
  split
  · exact Memory.wfFrom_mono (by omega) hm
  · rename_i hb
    exact Memory.wfFrom_cons.2 ⟨hlo, ha, hb, hm⟩

theorem Memory.wfFrom_erase {lo : Nat} {m : Memory} (hm : Memory.wfFrom lo m = true) (a : Nat) :
    Memory.wfFrom lo (m.erase a) = true := by
  induction m generalizing lo with
  | nil => rfl
  | cons c m ih =>
    obtain ⟨k, c⟩ := c
    have hk := Memory.wfFrom_cons.1 hm
    unfold Memory.erase
    split
    · exact Memory.wfFrom_mono (by omega) (ih hk.2.2.2)
    · exact Memory.wfFrom_cons.2 ⟨hk.1, hk.2.1, hk.2.2.1, ih hk.2.2.2⟩

theorem Memory.wfFrom_place {lo : Nat} {m : Memory} (hm : Memory.wfFrom lo m = true) {a : Nat} (hlo : lo ≤ a)
    (ha : a < Config.memSize) (b : Byte) (hne : ∀ c, (a, c) ∉ m) : Memory.wfFrom lo (m.place a b) = true := by
  induction m generalizing lo with
  | nil => simpa [Memory.place] using Memory.wfFrom_cell_append (m := []) hlo ha rfl
  | cons c m ih =>
    obtain ⟨k, c⟩ := c
    have hk := Memory.wfFrom_cons.1 hm
    have hka : k ≠ a := fun h => hne c (by simp [h])
    unfold Memory.place
    split
    · exact Memory.wfFrom_cell_append hlo ha (Memory.wfFrom_cons.2 ⟨by omega, hk.2⟩)
    · exact Memory.wfFrom_cons.2
        ⟨hk.1, hk.2.1, hk.2.2.1, ih hk.2.2.2 (by omega) (fun c hc => hne c (List.mem_cons_of_mem _ hc))⟩

/-- A write inside the memory keeps the canonical form. -/
theorem Memory.wf_write {m : Memory} (hm : m.wf = true) {a : Nat} (ha : a < Config.memSize) (b : Byte) :
    (m.write a b).wf = true :=
  Memory.wfFrom_place (Memory.wfFrom_erase hm a) (Nat.zero_le a) ha b (Memory.not_mem_erase m a)

theorem Memory.wf_nil : Memory.wf [] = true := rfl

/-- Storing bytes inside the memory keeps the canonical form. -/
theorem Memory.wf_writeList {m : Memory} (hm : m.wf = true) (base : Nat) (bs : List Byte)
    (h : base + bs.length ≤ Config.memSize) : (m.writeList base bs).wf = true := by
  induction bs generalizing m base with
  | nil => exact hm
  | cons b bs ih =>
    simp only [List.length_cons] at h
    exact ih (Memory.wf_write hm (by omega) b) (base + 1) (by omega)

/-- What a run of stores leaves at each address. -/
theorem Memory.read_writeList (m : Memory) (base : Nat) (bs : List Byte) (i : Nat) :
    (m.writeList base bs).read i =
      if base ≤ i ∧ i < base + bs.length then bs.getD (i - base) 0 else m.read i := by
  induction bs generalizing m base with
  | nil =>
    have : ¬ (base ≤ i ∧ i < base + ([] : List Byte).length) := by
      simp only [List.length_nil]
      omega
    rw [if_neg this]
    rfl
  | cons b bs ih =>
    rw [Memory.writeList, ih, Memory.read_write]
    by_cases h1 : i = base
    · subst h1
      simp
    · by_cases h2 : base ≤ i ∧ i < base + (b :: bs).length
      · have h3 : base + 1 ≤ i ∧ i < base + 1 + bs.length := by
          simp only [List.length_cons] at h2
          omega
        have h4 : i - base = (i - (base + 1)) + 1 := by omega
        rw [if_pos h3, if_pos h2, h4]
        simp
      · have h3 : ¬ (base + 1 ≤ i ∧ i < base + 1 + bs.length) := by
          simp only [List.length_cons] at h2
          omega
        rw [if_neg h3, if_neg h2, if_neg h1]

@[simp] theorem Memory.length_readList (m : Memory) (base count : Nat) : (m.readList base count).length = count := by
  induction count generalizing base with
  | zero => rfl
  | succ count ih => simp [Memory.readList, ih]

theorem Memory.getD_readList (m : Memory) (base count k : Nat) (h : k < count) :
    (m.readList base count).getD k 0 = m.read (base + k) := by
  induction count generalizing base k with
  | zero => omega
  | succ count ih =>
    cases k with
    | zero => simp [Memory.readList]
    | succ k =>
      have h1 := ih (base + 1) k (by omega)
      simp only [Memory.readList, List.getD_cons_succ, h1]
      congr 1
      omega

/-- Equal reads make equal memories: the canonical form is unique. -/
theorem Memory.eq_of_read_eq_from {lo : Nat} {m m' : Memory} (hm : Memory.wfFrom lo m = true)
    (hm' : Memory.wfFrom lo m' = true) (h : ∀ i, m.read i = m'.read i) : m = m' := by
  induction m generalizing lo m' with
  | nil =>
    cases m' with
    | nil => rfl
    | cons c m' =>
      obtain ⟨k, b⟩ := c
      have hk := Memory.wfFrom_cons.1 hm'
      have := h k
      simp [Memory.read] at this
      exact absurd this.symm hk.2.2.1
  | cons c m ih =>
    obtain ⟨k, b⟩ := c
    have hk := Memory.wfFrom_cons.1 hm
    cases m' with
    | nil =>
      have := h k
      simp [Memory.read] at this
      exact absurd this hk.2.2.1
    | cons c' m' =>
      obtain ⟨k', b'⟩ := c'
      have hk' := Memory.wfFrom_cons.1 hm'
      have hkk : k = k' := by
        rcases Nat.lt_trichotomy k k' with hlt | heq | hgt
        · have h1 := h k
          rw [Memory.read_below (Memory.wfFrom_cons.2 ⟨Nat.le_refl k', hk'.2⟩) hlt] at h1
          simp [Memory.read] at h1
          exact absurd h1 hk.2.2.1
        · exact heq
        · have h1 := h k'
          rw [Memory.read_below (Memory.wfFrom_cons.2 ⟨Nat.le_refl k, hk.2⟩) hgt] at h1
          simp [Memory.read] at h1
          exact absurd h1.symm hk'.2.2.1
      subst hkk
      have hb : b = b' := by
        have h1 := h k
        simpa [Memory.read] using h1
      subst hb
      rw [ih hk.2.2.2 hk'.2.2.2]
      intro i
      by_cases hi : i ≤ k
      · rw [Memory.read_below hk.2.2.2 (by omega), Memory.read_below hk'.2.2.2 (by omega)]
      · have h1 := h i
        have : k ≠ i := by omega
        simpa [Memory.read, this] using h1

theorem Memory.eq_of_read_eq {m m' : Memory} (hm : m.wf = true) (hm' : m'.wf = true)
    (h : ∀ i, m.read i = m'.read i) : m = m' :=
  Memory.eq_of_read_eq_from hm hm' h

/-- What a store leaves at each address of the machine. -/
theorem State.store_byteAt (s : State) (base : Nat) (bs : List Byte) (i : Nat) :
    (s.store base bs).byteAt i = if base ≤ i ∧ i < base + bs.length then bs.getD (i - base) 0 else s.byteAt i :=
  Memory.read_writeList s.mem base bs i

end Sys2Proof.Machine
end

