-- ==== Sys2Proof/Laws/Ops.lean ====
section
/-! SUPPORT. For each shared operation, what it can do: ending a phase, the errors, registers, stack, keypad, fetch, the end of a
step, and the one inversion of a step. -/

namespace Sys2Proof.Machine

/-! Ending an execute phase -/

@[simp] theorem finish_none (t : State) : finish none t = .next t := rfl

@[simp] theorem finish_some (e : Fault) (t : State) : finish (some e) t = .fault e := rfl

theorem finish_eq_next {e : Option Fault} {t u : State} : finish e t = .next u ↔ e = none ∧ t = u := by
  cases e <;> simp

theorem finish_eq_fault {e : Option Fault} {t : State} {f : Fault} : finish e t = .fault f ↔ e = some f := by
  cases e <;> simp

theorem finish_ne_refused {e : Option Fault} {t : State} {r : Refusal} : finish e t ≠ .refused r := by
  cases e <;> simp

/-! The errors -/

theorem rangeError_eq_none {base count : Nat} :
    rangeError base count = none ↔ count = 0 ∨ base + count ≤ Config.memSize := by
  have h : Config.memSize = 4096 := rfl
  unfold rangeError
  split <;> simp <;> omega

theorem rangeError_eq_some {base count : Nat} {e : Fault} :
    rangeError base count = some e ↔
      0 < count ∧ Config.memSize < base + count ∧ e = .memoryOutOfBounds (max base Config.memSize) := by
  unfold rangeError
  split
  · rename_i h
    simp only [Option.some.injEq]
    constructor
    · intro he
      exact ⟨h.1, by omega, he.symm⟩
    · intro he
      exact he.2.2.symm
  · rename_i h
    constructor
    · intro he
      cases he
    · intro he
      exact absurd ⟨he.1, by omega⟩ h

theorem keyError_eq_none {v : Byte} : keyError v = none ↔ v.toNat ≤ 15 := by
  unfold keyError
  split <;> simp <;> omega

theorem keyError_eq_some {v : Byte} {e : Fault} :
    keyError v = some e ↔ 15 < v.toNat ∧ e = .keypadIndexOutOfBounds v := by
  unfold keyError
  split <;> simp [*, eq_comm]

theorem rectError_eq_none {px py : Byte} {n : Nibble} :
    rectError px py n = none ↔ n = 0 ∨ (px.toNat ≤ 56 ∧ py.toNat + n.toNat ≤ 32) := by
  have h0 : n = 0 ↔ n.toNat = 0 := by
    constructor
    · rintro rfl
      rfl
    · intro h
      exact BitVec.eq_of_toNat_eq h
  unfold rectError
  split
  · rename_i h
    simp only [reduceCtorEq, h0, false_iff]
    omega
  · rename_i h
    simp only [h0, true_iff]
    omega

theorem rectError_eq_some {px py : Byte} {n : Nibble} {e : Fault} :
    rectError px py n = some e ↔
      0 < n.toNat ∧ (56 < px.toNat ∨ 32 < py.toNat + n.toNat) ∧ e = .drawOutOfBounds px py n := by
  unfold rectError
  split
  · rename_i h
    simp only [Option.some.injEq]
    constructor
    · intro he
      exact ⟨h.1, by omega, he.symm⟩
    · intro he
      exact he.2.2.symm
  · rename_i h
    constructor
    · intro he
      cases he
    · intro he
      exact absurd ⟨he.1, by omega⟩ h

theorem drawError_eq_none {s : State} {px py : Byte} {n : Nibble} :
    s.drawError px py n = none ↔ s.indexError n.toNat = none ∧ rectError px py n = none := by
  unfold State.drawError
  cases s.indexError n.toNat <;> simp

theorem drawError_eq_some {s : State} {px py : Byte} {n : Nibble} {e : Fault} :
    s.drawError px py n = some e ↔
      s.indexError n.toNat = some e ∨ (s.indexError n.toNat = none ∧ rectError px py n = some e) := by
  unfold State.drawError
  cases s.indexError n.toNat <;> simp

/-! Registers -/

/-- A register reads what was last written to it, and a write changes no other (spec/10_state.md R12). -/
theorem State.reg_setReg (s : State) (x : RegIdx) (v : Byte) (r : RegIdx) :
    (s.setReg x v).reg r = if r = x then v else s.reg r := by
  have h : (r = x) ↔ (x.toNat = r.toNat) := by
    constructor
    · rintro rfl
      rfl
    · intro h
      exact (BitVec.eq_of_toNat_eq h).symm
  simp [State.reg, State.setReg, Vector.getElem_set, h]

@[simp] theorem State.reg_setReg_same (s : State) (x : RegIdx) (v : Byte) : (s.setReg x v).reg x = v := by
  simp [State.reg_setReg]

@[simp] theorem State.setFlag_eq (s : State) (v : Byte) : s.setFlag v = s.setReg vf v := rfl

@[simp] theorem State.skipIf_eq (s : State) (c : Bool) : s.skipIf c = s.advance (if c then 4 else 2) := rfl

/-- The state's registers are what `reg` reads. -/
theorem State.regs_ext {s t : State} (h : ∀ r, t.reg r = s.reg r) : t.regs = s.regs := by
  refine Vector.ext fun k hk => ?_
  have h1 := h (BitVec.ofNat 4 k)
  have h2 : (BitVec.ofNat 4 k).toNat = k := by simp; omega
  simpa [State.reg, h2] using h1

theorem toNat_ofNat4 {k : Nat} (h : k < 16) : (BitVec.ofNat 4 k : RegIdx).toNat = k := by
  simp
  omega

/-- A run of register writes: register `k + j` gets the j-th byte, the others keep theirs. -/
theorem State.reg_setRegsFrom (s : State) (k : Nat) (bs : List Byte) (h : k + bs.length ≤ 16) (r : RegIdx) :
    (s.setRegsFrom k bs).reg r =
      if k ≤ r.toNat ∧ r.toNat < k + bs.length then bs.getD (r.toNat - k) 0 else s.reg r := by
  induction bs generalizing s k with
  | nil =>
    have : ¬ (k ≤ r.toNat ∧ r.toNat < k + ([] : List Byte).length) := by
      simp only [List.length_nil]
      omega
    rw [if_neg this]
    rfl
  | cons b bs ih =>
    simp only [List.length_cons] at h ⊢
    have hk : (BitVec.ofNat 4 k : RegIdx).toNat = k := toNat_ofNat4 (by omega)
    rw [State.setRegsFrom, ih _ _ (by omega), State.reg_setReg]
    by_cases h1 : r = BitVec.ofNat 4 k
    · subst h1
      have h2 : ¬ (k + 1 ≤ (BitVec.ofNat 4 k : RegIdx).toNat ∧
          (BitVec.ofNat 4 k : RegIdx).toNat < k + 1 + bs.length) := by omega
      have h3 : k ≤ (BitVec.ofNat 4 k : RegIdx).toNat ∧ (BitVec.ofNat 4 k : RegIdx).toNat < k + (bs.length + 1) := by omega
      rw [if_neg h2, if_pos h3, if_pos rfl]
      simp only [hk, Nat.sub_self, List.getD_cons_zero]
    · have hrk : r.toNat ≠ k := fun h2 => h1 (BitVec.eq_of_toNat_eq (by rw [hk]; exact h2))
      rw [if_neg h1]
      by_cases h2 : k ≤ r.toNat ∧ r.toNat < k + (bs.length + 1)
      · have h3 : k + 1 ≤ r.toNat ∧ r.toNat < k + 1 + bs.length := by omega
        have h4 : r.toNat - k = (r.toNat - (k + 1)) + 1 := by omega
        rw [if_pos h3, if_pos h2, h4, List.getD_cons_succ]
      · have h3 : ¬ (k + 1 ≤ r.toNat ∧ r.toNat < k + 1 + bs.length) := by omega
        rw [if_neg h3, if_neg h2]

/-- A run of register writes changes nothing but registers. -/
theorem State.setRegsFrom_keeps (s : State) (k : Nat) (bs : List Byte) :
    s.setRegsFrom k bs = { s with regs := (s.setRegsFrom k bs).regs } := by
  induction bs generalizing s k with
  | nil => rfl
  | cons b bs ih =>
    rw [State.setRegsFrom, ih]
    rfl

@[simp] theorem State.length_regRange (s : State) (x : RegIdx) : (s.regRange x).length = rangeCount x := by
  have := x.isLt
  simp [State.regRange, rangeCount]
  omega

theorem State.getD_regRange (s : State) (x r : RegIdx) (h : r.toNat ≤ x.toNat) :
    (s.regRange x).getD r.toNat 0 = s.reg r := by
  have h1 : r.toNat < rangeCount x := by unfold rangeCount; omega
  have h2 : r.toNat < 16 := r.isLt
  simp [State.regRange, State.reg, List.getD, h1, h2]

/-! The return stack -/

theorem State.pushPc_sp_val {s : State} (h : s.sp ≠ 16) : (s.pushPc).sp.val = s.sp.val + 1 := by
  have h1 : s.sp.val ≠ 16 := fun h2 => h (Fin.ext h2)
  have h2 := s.sp.isLt
  simp [Fin.val_add]
  omega

theorem State.dropTop_sp_val {s : State} (h : s.sp ≠ 0) : (s.dropTop).sp.val = s.sp.val - 1 := by
  have h1 : s.sp.val ≠ 0 := fun h2 => h (Fin.ext h2)
  have h2 := s.sp.isLt
  simp [Fin.sub_def]
  omega

/-- What a call pushes is what the return pops. -/
theorem State.topOfStack_pushPc {s : State} (h : s.sp ≠ 16) : s.pushPc.topOfStack = s.pc := by
  have h1 : s.sp.val ≠ 16 := fun h2 => h (Fin.ext h2)
  have h2 := s.sp.isLt
  rw [State.topOfStack, State.pushPc_sp_val h]
  simp [Vector.getD]
  omega

/-- The popped entry is one of the sixteen, for `sp` above 0. -/
theorem State.topOfStack_eq {s : State} (h : s.sp ≠ 0) :
    ∃ k : Fin 16, k.val + 1 = s.sp.val ∧ s.topOfStack = s.stack[k] := by
  have h1 : s.sp.val ≠ 0 := fun h2 => h (Fin.ext h2)
  have h2 := s.sp.isLt
  refine ⟨⟨s.sp.val - 1, by omega⟩, by simp; omega, ?_⟩
  have h3 : s.sp.val - 1 < 16 := by omega
  simp [State.topOfStack, Vector.getD, h3]

/-! The keypad -/

/-- The key found is pressed, is one of the sixteen, and no lower one is pressed (spec/44_keypad_timers.md R123). -/
theorem State.firstKey_eq_some {s : State} {k : Nat} :
    s.firstKey = some k ↔ k < 16 ∧ s.key k = true ∧ ∀ j, j < k → s.key j = false := by
  have hlen : s.keys.toList.length = 16 := by simp
  have hkey : ∀ j (h : j < 16), s.key j = s.keys.toList[j]'(by omega) := by
    intro j h
    simp [State.key, Vector.getD, h]
  unfold State.firstKey
  rw [List.findIdx?_eq_some_iff_getElem]
  constructor
  · rintro ⟨h, h1, h2⟩
    have hk : k < 16 := by rw [hlen] at h; exact h
    refine ⟨hk, by rw [hkey k hk]; exact h1, fun j hj => ?_⟩
    have hj' : j < 16 := Nat.lt_trans hj hk
    rw [hkey j hj']
    simpa using h2 j hj
  · rintro ⟨h, h1, h2⟩
    refine ⟨by rw [hlen]; exact h, by rw [hkey k h] at h1; exact h1, fun j hj => ?_⟩
    have := h2 j hj
    rw [hkey j (Nat.lt_trans hj h)] at this
    simpa using this

theorem State.firstKey_eq_none {s : State} : s.firstKey = none ↔ ∀ k, k < 16 → s.key k = false := by
  have hlen : s.keys.toList.length = 16 := by simp
  have hkey : ∀ j (h : j < 16), s.key j = s.keys.toList[j]'(by omega) := by
    intro j h
    simp [State.key, Vector.getD, h]
  unfold State.firstKey
  rw [List.findIdx?_eq_none_iff]
  constructor
  · intro h k hk
    rw [hkey k hk]
    have hk' : k < s.keys.toList.length := by rw [hlen]; exact hk
    simpa using h _ (List.getElem_mem hk')
  · intro h b hb
    obtain ⟨j, hj, rfl⟩ := List.getElem_of_mem hb
    rw [hlen] at hj
    have := h j hj
    rw [hkey j hj] at this
    simp [this]

/-! A step -/

theorem State.fetch_eq_ok {s : State} {w : Word} :
    s.fetch = .ok w ↔ s.pc.toNat + 1 < Config.memSize ∧ w = s.wordAt s.pc.toNat := by
  unfold State.fetch
  split
  · simp
    omega
  · simp [eq_comm]
    omega

theorem State.fetch_eq_error {s : State} {e : Fault} :
    s.fetch = .error e ↔ Config.memSize ≤ s.pc.toNat + 1 ∧ e = .fetchOutOfBounds s.pc := by
  unfold State.fetch
  split <;> simp [*, eq_comm]

@[simp] theorem completeOutcome_next (w : Word) (t : State) : completeOutcome w (.next t) = .next (t.complete w none) := rfl

@[simp] theorem completeOutcome_fault (w : Word) (e : Fault) : completeOutcome w (.fault e) = .fault e := rfl

theorem completeOutcome_eq_next {w : Word} {o : Host.Outcome State Fault Refusal} {t : State} :
    completeOutcome w o = .next t ↔ ∃ u, o = .next u ∧ t = u.complete w none := by
  cases o <;> simp [completeOutcome, eq_comm]

theorem completeOutcome_eq_fault {w : Word} {o : Host.Outcome State Fault Refusal} {e : Fault} :
    completeOutcome w o = .fault e ↔ o = .fault e := by
  cases o <;> simp [completeOutcome]

/-- All that a completed step can have done: an unknown word was skipped, or an instruction ran. -/
theorem step_eq_next {s t : State} :
    step s = .next t ↔ s.pc.toNat + 1 < Config.memSize ∧
      ((decodeWord (s.wordAt s.pc.toNat) = none ∧
          t = (execUnknown s).complete (s.wordAt s.pc.toNat) (some (s.wordAt s.pc.toNat))) ∨
        ∃ i u, decodeWord (s.wordAt s.pc.toNat) = some i ∧ exec i s = .next u ∧
          t = u.complete (s.wordAt s.pc.toNat) none) := by
  unfold step State.fetch
  by_cases h : Config.memSize ≤ s.pc.toNat + 1
  · simp only [h, if_true, raise]
    constructor
    · intro h1
      cases h1
    · intro h1
      omega
  · simp only [h, if_false]
    have h' : s.pc.toNat + 1 < Config.memSize := by omega
    cases hd : decodeWord (s.wordAt s.pc.toNat) with
    | none => simp [h', eq_comm]
    | some i => simp [h', completeOutcome_eq_next]

/-- All that a failed step can have met: the fetch failed, or the instruction's rule raised the error. -/
theorem step_eq_fault {s : State} {e : Fault} :
    step s = .fault e ↔ (Config.memSize ≤ s.pc.toNat + 1 ∧ e = .fetchOutOfBounds s.pc) ∨
      (s.pc.toNat + 1 < Config.memSize ∧ ∃ i, decodeWord (s.wordAt s.pc.toNat) = some i ∧ exec i s = .fault e) := by
  unfold step State.fetch
  by_cases h : Config.memSize ≤ s.pc.toNat + 1
  · have h' : ¬ s.pc.toNat + 1 < Config.memSize := by omega
    simp [h, raise, h', eq_comm]
  · have h' : s.pc.toNat + 1 < Config.memSize := by omega
    simp only [h, if_false, h', true_and, false_and, false_or]
    cases hd : decodeWord (s.wordAt s.pc.toNat) with
    | none => simp
    | some i => simp [completeOutcome_eq_fault]

/-! Placing an instruction -/

@[simp] theorem wordOfBytes_split (w : Word) : wordOfBytes (highByte w) (lowByte w) = w := by
  apply BitVec.eq_of_getLsbD_eq
  intro k hk
  simp only [wordOfBytes, highByte, lowByte, BitVec.getLsbD_append, BitVec.getLsbD_extractLsb']
  by_cases h : k < 8
  · simp [h]
  · have h1 : k - 8 < 8 := by omega
    have h2 : 8 + (k - 8) = k := by omega
    simp [h, h1, h2]

/-- The next step fetches exactly the word placed, in every state. -/
theorem State.fetch_placeWord (s : State) (w : Word) : (s.placeWord w).fetch = .ok w := by
  rw [State.fetch_eq_ok]
  unfold State.placeWord
  by_cases h : Config.memSize ≤ s.pc.toNat + 1
  · simp only [h, if_true]
    refine ⟨by simp; decide, ?_⟩
    simp [State.wordAt, State.store_byteAt]
  · simp only [h, if_false]
    refine ⟨by simpa using h, ?_⟩
    simp [State.wordAt, State.store_byteAt]

end Sys2Proof.Machine
end

