-- ==== Sys2Proof/Laws/Screen.lean ====
section
/-! SUPPORT. Drawing, seen pixel by pixel: what the rows and columns of spec/40_display.md R71's loop leave on the screen, and
when they collide. -/

namespace Sys2Proof.Machine

/-- The bit of sprite row `b`, drawn at column `px`, that lands on column `x` (spec/40_display.md R72). -/
def rowBit (b : Byte) (px x : Nat) : Bool := decide (px ≤ x) && decide (x < px + 8) && b.getLsbD (7 - (x - px))

theorem RowDraw.getD_bit (d : RowDraw) (on : Bool) {cx : Nat} (h : cx < 64) (x : Nat) :
    (d.bit on cx).row.getD x false = (d.row.getD x false ^^ (on && decide (x = cx))) := by
  cases on with
  | false => simp [RowDraw.bit]
  | true =>
    by_cases hx : x = cx
    · subst hx
      simp [RowDraw.bit, Vector.getD, h]
    · by_cases h64 : x < 64
      · simp [RowDraw.bit, Vector.getD, hx, h64, Ne.symm hx]
      · simp [RowDraw.bit, Vector.getD, hx, h64]

theorem RowDraw.collided_bit (d : RowDraw) (on : Bool) (cx : Nat) :
    (d.bit on cx).collided = (d.collided || (on && d.row.getD cx false)) := by
  cases on <;> simp [RowDraw.bit]

/-- The columns of one sprite row, each visited once: each inverts its pixel where its bit is set. -/
theorem RowDraw.getD_cols (b : Byte) (px : Nat) (cs : List Nat) (hn : cs.Nodup) (h : ∀ c ∈ cs, px + c < 64)
    (d : RowDraw) (x : Nat) :
    (RowDraw.cols b px cs d).row.getD x false =
      (d.row.getD x false ^^ (decide (px ≤ x ∧ x - px ∈ cs) && b.getLsbD (7 - (x - px)))) := by
  induction cs generalizing d with
  | nil => simp [RowDraw.cols]
  | cons c cs ih =>
    rw [List.nodup_cons] at hn
    rw [RowDraw.cols, ih hn.2 (fun e he => h e (List.mem_cons_of_mem _ he)),
      RowDraw.getD_bit d _ (h c (List.mem_cons_self ..))]
    by_cases hx : x = px + c
    · subst hx
      simp [hn.1]
    · have h1 : (px ≤ x ∧ x - px ∈ c :: cs) ↔ (px ≤ x ∧ x - px ∈ cs) := by
        simp only [List.mem_cons]
        constructor
        · rintro ⟨h2, h3 | h3⟩
          · omega
          · exact ⟨h2, h3⟩
        · rintro ⟨h2, h3⟩
          exact ⟨h2, Or.inr h3⟩
      simp only [h1, hx, decide_false, Bool.and_false, Bool.xor_false]

/-- A collision in one sprite row: some set bit lands on a pixel that was set before the row. -/
theorem RowDraw.collided_cols (b : Byte) (px : Nat) (cs : List Nat) (hn : cs.Nodup) (h : ∀ c ∈ cs, px + c < 64)
    (d : RowDraw) :
    (RowDraw.cols b px cs d).collided = true ↔
      d.collided = true ∨ ∃ c ∈ cs, b.getLsbD (7 - c) = true ∧ d.row.getD (px + c) false = true := by
  induction cs generalizing d with
  | nil => simp [RowDraw.cols]
  | cons c cs ih =>
    rw [List.nodup_cons] at hn
    have hc := h c (List.mem_cons_self ..)
    rw [RowDraw.cols, ih hn.2 (fun e he => h e (List.mem_cons_of_mem _ he)), RowDraw.collided_bit]
    have h1 : (∃ e ∈ cs, b.getLsbD (7 - e) = true ∧
        (d.bit (b.getLsbD (7 - c)) (px + c)).row.getD (px + e) false = true) ↔
        ∃ e ∈ cs, b.getLsbD (7 - e) = true ∧ d.row.getD (px + e) false = true := by
      refine exists_congr fun e => and_congr_right fun he => and_congr_right fun _ => ?_
      have h2 : px + e ≠ px + c := by
        intro h3
        have : e = c := by omega
        exact hn.1 (this ▸ he)
      rw [RowDraw.getD_bit d _ hc, decide_eq_false h2]
      simp
    rw [h1]
    simp [or_assoc]

theorem spriteColumns_nodup : spriteColumns.Nodup := by decide

theorem mem_spriteColumns {c : Nat} : c ∈ spriteColumns ↔ c < 8 := by
  simp [spriteColumns]
  omega

theorem spriteColumns_bound {px : Nat} (h : px + 7 < 64) : ∀ c ∈ spriteColumns, px + c < 64 := by
  intro c hc
  have := mem_spriteColumns.1 hc
  omega

/-- One sprite row on the screen. -/
theorem Drawing.pixel_line (b : Byte) {px cy : Nat} (hx : px + 7 < 64) (hy : cy < 32) (d : Drawing) (x y : Nat) :
    (d.line b px cy).display.pixel x y = (d.display.pixel x y ^^ (decide (y = cy) && rowBit b px x)) := by
  have h1 := RowDraw.getD_cols b px spriteColumns spriteColumns_nodup (spriteColumns_bound hx)
    { row := d.display.row cy, collided := d.collided } x
  by_cases hyc : y = cy
  · subst hyc
    have h2 : (d.line b px y).display.row y =
        (RowDraw.cols b px spriteColumns { row := d.display.row y, collided := d.collided }).row := by
      simp [Drawing.line, Display.row, Vector.getD, hy]
    have h3 : decide (px ≤ x ∧ x - px ∈ spriteColumns) = (decide (px ≤ x) && decide (x < px + 8)) := by
      rw [← Bool.decide_and]
      refine decide_eq_decide.2 ?_
      rw [mem_spriteColumns]
      omega
    rw [Display.pixel, h2, h1, h3]
    simp [rowBit, Display.pixel]
  · have h2 : (d.line b px cy).display.row y = d.display.row y := by
      by_cases hy32 : y < 32
      · simp [Drawing.line, Display.row, Vector.getD, hy32, Ne.symm hyc]
      · simp [Drawing.line, Display.row, Vector.getD, hy32]
    simp [Display.pixel, h2, hyc]

theorem Drawing.collided_line (b : Byte) {px cy : Nat} (hx : px + 7 < 64) (d : Drawing) :
    (d.line b px cy).collided = true ↔
      d.collided = true ∨ ∃ x, rowBit b px x = true ∧ d.display.pixel x cy = true := by
  have h1 := RowDraw.collided_cols b px spriteColumns spriteColumns_nodup (spriteColumns_bound hx)
    { row := d.display.row cy, collided := d.collided }
  have h2 : (d.line b px cy).collided =
      (RowDraw.cols b px spriteColumns { row := d.display.row cy, collided := d.collided }).collided := rfl
  rw [h2, h1]
  refine or_congr_right ?_
  constructor
  · rintro ⟨c, hc, h3, h4⟩
    have h5 := mem_spriteColumns.1 hc
    refine ⟨px + c, ?_, h4⟩
    simp [rowBit, h3]
    omega
  · rintro ⟨x, h3, h4⟩
    simp only [rowBit, Bool.and_eq_true, decide_eq_true_eq] at h3
    refine ⟨x - px, mem_spriteColumns.2 (by omega), h3.2, ?_⟩
    have h5 : px + (x - px) = x := by omega
    rw [h5]
    exact h4

/-- The whole sprite on the screen: each pixel is inverted where the sprite has a set bit on it. -/
theorem Drawing.pixel_rows {px : Nat} (hx : px + 7 < 64) (bs : List Byte) (cy : Nat) (hy : cy + bs.length ≤ 32)
    (d : Drawing) (x y : Nat) :
    (Drawing.rows px cy bs d).display.pixel x y =
      (d.display.pixel x y ^^
        (decide (cy ≤ y) && decide (y < cy + bs.length) && rowBit (bs.getD (y - cy) 0) px x)) := by
  induction bs generalizing cy d with
  | nil =>
    have h1 : ¬ (cy ≤ y ∧ y < cy + 0) := by omega
    have h2 : (decide (cy ≤ y) && decide (y < cy + 0)) = false := by
      rw [← Bool.decide_and]
      exact decide_eq_false h1
    simp only [Drawing.rows, List.length_nil, h2, Bool.false_and, Bool.xor_false]
  | cons b bs ih =>
    simp only [List.length_cons] at hy ⊢
    rw [Drawing.rows, ih (cy + 1) (by omega), Drawing.pixel_line b hx (by omega)]
    by_cases h1 : y = cy
    · subst h1
      simp
    · have h2 : (decide (cy ≤ y) && decide (y < cy + (bs.length + 1))) =
          (decide (cy + 1 ≤ y) && decide (y < cy + 1 + bs.length)) := by
        rw [← Bool.decide_and, ← Bool.decide_and]
        congr 1
        apply propext
        omega
      rw [h2]
      by_cases h3 : cy + 1 ≤ y
      · have h4 : y - cy = (y - (cy + 1)) + 1 := by omega
        rw [h4, List.getD_cons_succ]
        simp [h1]
      · simp [h1, h3]

/-- A collision of the whole sprite: some set bit lands on a pixel that was set before the draw. -/
theorem Drawing.collided_rows {px : Nat} (hx : px + 7 < 64) (bs : List Byte) (cy : Nat) (hy : cy + bs.length ≤ 32)
    (d : Drawing) :
    (Drawing.rows px cy bs d).collided = true ↔
      d.collided = true ∨ ∃ x y, cy ≤ y ∧ y < cy + bs.length ∧ rowBit (bs.getD (y - cy) 0) px x = true ∧
        d.display.pixel x y = true := by
  induction bs generalizing cy d with
  | nil =>
    simp only [Drawing.rows, List.length_nil]
    constructor
    · exact Or.inl
    · rintro (h | ⟨x, y, h1, h2, _⟩)
      · exact h
      · omega
  | cons b bs ih =>
    simp only [List.length_cons] at hy ⊢
    rw [Drawing.rows, ih (cy + 1) (by omega), Drawing.collided_line b hx, or_assoc]
    refine or_congr_right ?_
    constructor
    · rintro (⟨x, h1, h2⟩ | ⟨x, y, h1, h2, h3, h4⟩)
      · exact ⟨x, cy, by omega, by omega, by simpa using h1, h2⟩
      · rw [Drawing.pixel_line b hx (by omega)] at h4
        have h5 : y ≠ cy := by omega
        have h6 : y - cy = (y - (cy + 1)) + 1 := by omega
        refine ⟨x, y, by omega, by omega, ?_, by simpa [h5] using h4⟩
        rw [h6, List.getD_cons_succ]
        exact h3
    · rintro ⟨x, y, h1, h2, h3, h4⟩
      by_cases h5 : y = cy
      · subst h5
        exact Or.inl ⟨x, by simpa using h3, h4⟩
      · have h6 : y - cy = (y - (cy + 1)) + 1 := by omega
        rw [h6, List.getD_cons_succ] at h3
        refine Or.inr ⟨x, y, by omega, by omega, h3, ?_⟩
        rw [Drawing.pixel_line b hx (by omega)]
        simpa [h5] using h4

/-- The bytes drawn are the sprite's bits of `State.spriteBit`. -/
theorem State.spriteBit_eq (s : State) (px py n x y : Nat) :
    s.spriteBit px py n x y =
      (decide (py ≤ y) && decide (y < py + n) && rowBit ((s.bytesAtIndex n).getD (y - py) 0) px x) := by
  by_cases h : py ≤ y ∧ y < py + n
  · have h1 := Memory.getD_readList s.mem s.index.toNat n (y - py) (by omega)
    have h2 : (s.bytesAtIndex n).getD (y - py) 0 = s.byteAt (s.index.toNat + (y - py)) := h1
    rw [h2]
    simp [State.spriteBit, rowBit, h.1, h.2]
  · have h1 : (decide (py ≤ y) && decide (y < py + n)) = false := by
      rw [← Bool.decide_and]
      exact decide_eq_false h
    rw [h1]
    simp only [State.spriteBit, Bool.false_and, Bool.and_assoc]
    rw [← Bool.and_assoc (decide (py ≤ y)), h1]
    simp

@[simp] theorem State.length_bytesAtIndex (s : State) (n : Nat) : (s.bytesAtIndex n).length = n :=
  Memory.length_readList _ _ _

/-- A cleared screen has no pixel set. -/
@[simp] theorem Display.pixel_clear (x y : Nat) : Display.clear.pixel x y = false := by
  have h : Display.clear.row y = Vector.replicate 64 false := by
    by_cases hy : y < 32 <;> simp [Display.clear, Display.row, Vector.getD, hy]
  rw [Display.pixel, h]
  by_cases hx : x < 64 <;> simp [Vector.getD, hx]

/-- A screen is its pixels. -/
theorem Display.ext_pixel {d e : Display} (h : ∀ x y, x < 64 → y < 32 → d.pixel x y = e.pixel x y) : d = e := by
  refine Vector.ext fun y hy => Vector.ext fun x hx => ?_
  simpa [Display.pixel, Display.row, Vector.getD, hx, hy] using h x y hx hy

end Sys2Proof.Machine
end

