-- ==== Sys2Proof/Laws/Exec.lean ====
section
/-! SUPPORT. What each arm of exec answers, in the terms of the shared operations. -/

namespace Sys2Proof.Machine

variable (s : State)

theorem exec_cls : exec .cls s = .next ((s.setScreen Display.clear).advance 2) := rfl

theorem exec_ret : exec .ret s =
    finish (if s.sp = 0 then some (.stackUnderflow s.pc) else none) (s.dropTop.jump (s.topOfStack + 2)) := rfl

theorem exec_jp (nnn : Addr12) : exec (.jp nnn) s = .next (s.jump (zextAddr nnn)) := rfl

theorem exec_call (nnn : Addr12) : exec (.call nnn) s =
    finish (if s.sp = 16 then some (.stackOverflow s.pc) else none) (s.pushPc.jump (zextAddr nnn)) := rfl

theorem exec_seImm (x : RegIdx) (kk : Byte) : exec (.seImm x kk) s = .next (s.skipIf (s.reg x == kk)) := rfl

theorem exec_sneImm (x : RegIdx) (kk : Byte) : exec (.sneImm x kk) s = .next (s.skipIf (s.reg x != kk)) := rfl

theorem exec_seReg (x y : RegIdx) : exec (.seReg x y) s = .next (s.skipIf (s.reg x == s.reg y)) := rfl

theorem exec_sneReg (x y : RegIdx) : exec (.sneReg x y) s = .next (s.skipIf (s.reg x != s.reg y)) := rfl

theorem exec_jpV0 (nnn : Addr12) : exec (.jpV0 nnn) s = .next (s.jump (zextAddr nnn + zextByte (s.reg 0))) := rfl

theorem exec_ldImm (x : RegIdx) (kk : Byte) : exec (.ldImm x kk) s = .next ((s.setReg x kk).advance 2) := rfl

theorem exec_addImm (x : RegIdx) (kk : Byte) : exec (.addImm x kk) s = .next ((s.setReg x (s.reg x + kk)).advance 2) := rfl

theorem exec_ldReg (x y : RegIdx) : exec (.ldReg x y) s = .next ((s.setReg x (s.reg y)).advance 2) := rfl

theorem exec_or (x y : RegIdx) : exec (.or x y) s =
    .next (((s.setReg x (s.reg x ||| s.reg y)).setReg vf 0).advance 2) := rfl

theorem exec_and (x y : RegIdx) : exec (.and x y) s =
    .next (((s.setReg x (s.reg x &&& s.reg y)).setReg vf 0).advance 2) := rfl

theorem exec_xor (x y : RegIdx) : exec (.xor x y) s =
    .next (((s.setReg x (s.reg x ^^^ s.reg y)).setReg vf 0).advance 2) := rfl

theorem exec_addReg (x y : RegIdx) : exec (.addReg x y) s =
    .next (((s.setReg vf (carryFlag (s.reg x) (s.reg y))).setReg x
      (BitVec.ofNat 8 (wideSum (s.reg x) (s.reg y)))).advance 2) := rfl

theorem exec_sub (x y : RegIdx) : exec (.sub x y) s =
    .next (((s.setReg vf (noBorrowFlag (s.reg x) (s.reg y))).setReg x
      ((s.setReg vf (noBorrowFlag (s.reg x) (s.reg y))).reg x -
        (s.setReg vf (noBorrowFlag (s.reg x) (s.reg y))).reg y)).advance 2) := rfl

theorem exec_shr (x y : RegIdx) : exec (.shr x y) s =
    .next (((s.setReg vf (shiftedOutLow (s.reg y))).setReg x
      ((s.setReg vf (shiftedOutLow (s.reg y))).reg y >>> 1)).advance 2) := rfl

theorem exec_subn (x y : RegIdx) : exec (.subn x y) s =
    .next (((s.setReg vf (noBorrowFlag (s.reg y) (s.reg x))).setReg x
      ((s.setReg vf (noBorrowFlag (s.reg y) (s.reg x))).reg y -
        (s.setReg vf (noBorrowFlag (s.reg y) (s.reg x))).reg x)).advance 2) := rfl

theorem exec_shl (x y : RegIdx) : exec (.shl x y) s =
    .next (((s.setReg vf (shiftedOutHigh (s.reg y))).setReg x
      ((s.setReg vf (shiftedOutHigh (s.reg y))).reg y <<< 1)).advance 2) := rfl

theorem exec_rnd (x : RegIdx) (kk : Byte) : exec (.rnd x kk) s =
    .next ((s.drawn.setReg x (kk &&& Config.randomByte s.draws)).advance 2) := rfl

theorem exec_ldI (nnn : Addr12) : exec (.ldI nnn) s = .next ((s.setIndex (zextAddr nnn)).advance 2) := rfl

theorem exec_addI (x : RegIdx) : exec (.addI x) s = .next ((s.setIndex (s.index + zextByte (s.reg x))).advance 2) := rfl

theorem exec_ldF (x : RegIdx) : exec (.ldF x) s =
    .next ((s.setIndex (Config.fontIBase + 5 * zextByte (s.reg x))).advance 2) := rfl

theorem exec_ldB (x : RegIdx) : exec (.ldB x) s =
    finish (s.indexError 3) ((s.store s.index.toNat (decimalDigits (s.reg x))).advance 2) := rfl

theorem exec_stRegs (x : RegIdx) : exec (.stRegs x) s = finish (s.indexError (rangeCount x))
    (((s.store s.index.toNat (s.regRange x)).setIndex (s.index + BitVec.ofNat 16 (rangeCount x))).advance 2) := rfl

theorem exec_ldRegs (x : RegIdx) : exec (.ldRegs x) s = finish (s.indexError (rangeCount x))
    (((s.setRegsFrom 0 (s.bytesAtIndex (rangeCount x))).setIndex (s.index + BitVec.ofNat 16 (rangeCount x))).advance 2) :=
  rfl

theorem exec_drw (x y : RegIdx) (n : Nibble) : exec (.drw x y n) s = finish (s.drawError (s.reg x) (s.reg y) n)
    (((s.setScreen (Drawing.rows (s.reg x).toNat (s.reg y).toNat (s.bytesAtIndex n.toNat)
        { display := s.fb, collided := false }).display).setReg vf
      (flagOf (Drawing.rows (s.reg x).toNat (s.reg y).toNat (s.bytesAtIndex n.toNat)
        { display := s.fb, collided := false }).collided)).advance 2) := rfl

theorem exec_skp (x : RegIdx) : exec (.skp x) s = finish (keyError (s.reg x)) (s.skipIf (s.key (s.reg x).toNat)) := rfl

theorem exec_sknp (x : RegIdx) : exec (.sknp x) s = finish (keyError (s.reg x)) (s.skipIf (!s.key (s.reg x).toNat)) := rfl

theorem exec_ldVxDt (x : RegIdx) : exec (.ldVxDt x) s = .next ((s.setReg x s.dt).advance 2) := rfl

/-- The key wait always completes: with the least pressed key, or with nothing changed. -/
theorem exec_ldVxK (x : RegIdx) : exec (.ldVxK x) s =
    .next (match s.firstKey with
      | some k => (s.setReg x (BitVec.ofNat 8 k)).advance 2
      | none => s) := by
  simp only [exec, execLdVxK]
  cases s.firstKey <;> rfl

theorem exec_ldDtVx (x : RegIdx) : exec (.ldDtVx x) s = .next ((s.setDelay (s.reg x)).advance 2) := rfl

theorem exec_ldStVx (x : RegIdx) : exec (.ldStVx x) s = .next ((s.setSound (s.reg x)).advance 2) := rfl

end Sys2Proof.Machine
end

