-- ==== Sys2Proof/Laws/Fields.lean ====
section
/-! SUPPORT. The fields of an assembled word, and the masks of the opcode map as fields (spec/30_encoding.md R52, R53, R56). -/

namespace Sys2Proof

/-! Every word, bit by bit -/

theorem getLsbD_formNnn (op : Nibble) (nnn : Addr12) (k : Nat) :
    (formNnn op nnn).getLsbD k = if k < 12 then nnn.getLsbD k else op.getLsbD (k - 12) := by
  refine (BitVec.getLsbD_append (x := op) (y := nnn) (i := k)).trans ?_
  split <;> simp [*]

theorem getLsbD_formXkk (op : Nibble) (x : RegIdx) (kk : Byte) (k : Nat) :
    (formXkk op x kk).getLsbD k =
      if k < 8 then kk.getLsbD k else if k < 12 then x.getLsbD (k - 8) else op.getLsbD (k - 12) := by
  refine (BitVec.getLsbD_append (x := (op ++ x : BitVec (4 + 4))) (y := kk) (i := k)).trans ?_
  rw [BitVec.getLsbD_append]
  have h1 : (k - 8 < 4) ↔ (k < 12) ∨ k < 8 := by omega
  have h2 : k - 8 - 4 = k - 12 := by omega
  by_cases h : k < 8
  · simp [h]
  · simp [h, h1, h2]

theorem getLsbD_formXyn (op : Nibble) (x y : RegIdx) (n : Nibble) (k : Nat) :
    (formXyn op x y n).getLsbD k =
      if k < 4 then n.getLsbD k else if k < 8 then y.getLsbD (k - 4)
      else if k < 12 then x.getLsbD (k - 8) else op.getLsbD (k - 12) := by
  refine (BitVec.getLsbD_append (x := (op ++ x ++ y : BitVec (4 + 4 + 4))) (y := n) (i := k)).trans ?_
  rw [BitVec.getLsbD_append, BitVec.getLsbD_append]
  have h1 : (k - 4 < 4) ↔ (k < 8) ∨ k < 4 := by omega
  have h2 : (k - 8 < 4) ↔ (k < 12) := by omega
  have h3 : k - 4 - 4 = k - 8 := by omega
  have h4 : k - 4 - 4 - 4 = k - 12 := by omega
  by_cases h : k < 4
  · simp [h]
  · by_cases h8 : k < 8
    · simp [h, h1, h8]
    · rw [h4, h3]
      simp only [h2, h1, h, h8, if_false, or_false]

/-! The fields of an assembled word -/

@[simp] theorem opField_formNnn (op : Nibble) (nnn : Addr12) : opField (formNnn op nnn) = op := by
  refine BitVec.eq_of_getLsbD_eq fun k hk => ?_
  simp [opField, getLsbD_formNnn, hk]

@[simp] theorem nnnField_formNnn (op : Nibble) (nnn : Addr12) : nnnField (formNnn op nnn) = nnn := by
  refine BitVec.eq_of_getLsbD_eq fun k hk => ?_
  simp [nnnField, getLsbD_formNnn, hk]

@[simp] theorem opField_formXkk (op : Nibble) (x : RegIdx) (kk : Byte) : opField (formXkk op x kk) = op := by
  refine BitVec.eq_of_getLsbD_eq fun k hk => ?_
  have h1 : ¬ 12 + k < 8 := by omega
  simp [opField, getLsbD_formXkk, hk, h1]

@[simp] theorem xField_formXkk (op : Nibble) (x : RegIdx) (kk : Byte) : xField (formXkk op x kk) = x := by
  refine BitVec.eq_of_getLsbD_eq fun k hk => ?_
  have h2 : 8 + k < 12 := by omega
  simp [xField, getLsbD_formXkk, hk, h2]

@[simp] theorem kkField_formXkk (op : Nibble) (x : RegIdx) (kk : Byte) : kkField (formXkk op x kk) = kk := by
  refine BitVec.eq_of_getLsbD_eq fun k hk => ?_
  simp [kkField, getLsbD_formXkk, hk]

@[simp] theorem opField_formXyn (op : Nibble) (x y : RegIdx) (n : Nibble) : opField (formXyn op x y n) = op := by
  refine BitVec.eq_of_getLsbD_eq fun k hk => ?_
  have h1 : ¬ 12 + k < 4 := by omega
  have h2 : ¬ 12 + k < 8 := by omega
  simp [opField, getLsbD_formXyn, hk, h1, h2]

@[simp] theorem xField_formXyn (op : Nibble) (x y : RegIdx) (n : Nibble) : xField (formXyn op x y n) = x := by
  refine BitVec.eq_of_getLsbD_eq fun k hk => ?_
  have h1 : ¬ 8 + k < 4 := by omega
  have h2 : 8 + k < 12 := by omega
  simp [xField, getLsbD_formXyn, hk, h1, h2]

@[simp] theorem yField_formXyn (op : Nibble) (x y : RegIdx) (n : Nibble) : yField (formXyn op x y n) = y := by
  refine BitVec.eq_of_getLsbD_eq fun k hk => ?_
  have h2 : 4 + k < 8 := by omega
  simp [yField, getLsbD_formXyn, hk, h2]

@[simp] theorem nField_formXyn (op : Nibble) (x y : RegIdx) (n : Nibble) : nField (formXyn op x y n) = n := by
  refine BitVec.eq_of_getLsbD_eq fun k hk => ?_
  simp [nField, getLsbD_formXyn, hk]

/-! A word is its fields -/

theorem word_eq_formNnn (w : Word) : w = formNnn (opField w) (nnnField w) := by
  refine BitVec.eq_of_getLsbD_eq fun k hk => ?_
  rw [getLsbD_formNnn]
  split
  · simp [nnnField, *]
  · have h1 : k - 12 < 4 := by omega
    have h2 : 12 + (k - 12) = k := by omega
    simp [opField, h1, h2]

theorem word_eq_formXkk (w : Word) : w = formXkk (opField w) (xField w) (kkField w) := by
  refine BitVec.eq_of_getLsbD_eq fun k hk => ?_
  rw [getLsbD_formXkk]
  split
  · simp [kkField, *]
  · split
    · have h1 : k - 8 < 4 := by omega
      have h2 : 8 + (k - 8) = k := by omega
      simp [xField, h1, h2]
    · have h1 : k - 12 < 4 := by omega
      have h2 : 12 + (k - 12) = k := by omega
      simp [opField, h1, h2]

theorem word_eq_formXyn (w : Word) : w = formXyn (opField w) (xField w) (yField w) (nField w) := by
  refine BitVec.eq_of_getLsbD_eq fun k hk => ?_
  rw [getLsbD_formXyn]
  split
  · simp [nField, *]
  · split
    · have h1 : k - 4 < 4 := by omega
      have h2 : 4 + (k - 4) = k := by omega
      simp [yField, h1, h2]
    · split
      · have h1 : k - 8 < 4 := by omega
        have h2 : 8 + (k - 8) = k := by omega
        simp [xField, h1, h2]
      · have h1 : k - 12 < 4 := by omega
        have h2 : 12 + (k - 12) = k := by omega
        simp [opField, h1, h2]

/-! The masks of the opcode map -/

theorem mask_op (w : Word) : w &&& 0xF000 = formNnn (opField w) 0 := by
  refine BitVec.eq_of_getLsbD_eq fun k hk => ?_
  rw [getLsbD_formNnn, BitVec.getLsbD_and]
  interval_cases k <;> simp [opField]

theorem mask_op_n (w : Word) : w &&& 0xF00F = formXyn (opField w) 0 0 (nField w) := by
  refine BitVec.eq_of_getLsbD_eq fun k hk => ?_
  rw [getLsbD_formXyn, BitVec.getLsbD_and]
  interval_cases k <;> simp [opField, nField]

theorem mask_op_kk (w : Word) : w &&& 0xF0FF = formXkk (opField w) 0 (kkField w) := by
  refine BitVec.eq_of_getLsbD_eq fun k hk => ?_
  rw [getLsbD_formXkk, BitVec.getLsbD_and]
  interval_cases k <;> simp [opField, kkField]

/-! A row's check as a check on fields (R55) -/

theorem covers_op (m : String) (v w : Word) : OpRow.covers ⟨m, 0xF000, v⟩ w = (formNnn (opField w) 0 == v) := by
  rw [OpRow.covers, mask_op]

theorem covers_op_n (m : String) (v w : Word) :
    OpRow.covers ⟨m, 0xF00F, v⟩ w = (formXyn (opField w) 0 0 (nField w) == v) := by
  rw [OpRow.covers, mask_op_n]

theorem covers_op_kk (m : String) (v w : Word) :
    OpRow.covers ⟨m, 0xF0FF, v⟩ w = (formXkk (opField w) 0 (kkField w) == v) := by
  rw [OpRow.covers, mask_op_kk]

theorem covers_all (m : String) (v w : Word) : OpRow.covers ⟨m, 0xFFFF, v⟩ w = (w == v) := by
  have h : w &&& 0xFFFF = w := BitVec.and_allOnes
  rw [OpRow.covers, h]

end Sys2Proof
end

