-- ==== Sys2Proof/Laws/PerInstr.lean ====
section
/-! SUPPORT. For every instruction: its encoded word is covered by its own row of the opcode map (spec/30_encoding.md R55, R56). -/

namespace Sys2Proof.Laws.Encoding

/-- The instruction's word matches its row, and the row is one of the opcode map. -/
def Statement (i : Instr) : Prop := i.row.covers (encode i) = true ∧ i.row ∈ opcodeMap

theorem cls : Statement .cls :=
  ⟨by decide, by decide⟩

theorem ret : Statement .ret :=
  ⟨by decide, by decide⟩

theorem jp (nnn : Addr12) : Statement (.jp nnn) :=
  ⟨(covers_op _ _ _).trans (by rw [encode, opField_formNnn]; decide), by simp [opcodeMap, Instr.row]⟩

theorem call (nnn : Addr12) : Statement (.call nnn) :=
  ⟨(covers_op _ _ _).trans (by rw [encode, opField_formNnn]; decide), by simp [opcodeMap, Instr.row]⟩

theorem seImm (x : RegIdx) (kk : Byte) : Statement (.seImm x kk) :=
  ⟨(covers_op _ _ _).trans (by rw [encode, opField_formXkk]; decide), by simp [opcodeMap, Instr.row]⟩

theorem sneImm (x : RegIdx) (kk : Byte) : Statement (.sneImm x kk) :=
  ⟨(covers_op _ _ _).trans (by rw [encode, opField_formXkk]; decide), by simp [opcodeMap, Instr.row]⟩

theorem seReg (x : RegIdx) (y : RegIdx) : Statement (.seReg x y) :=
  ⟨(covers_op_n _ _ _).trans (by rw [encode, opField_formXyn, nField_formXyn]; decide), by simp [opcodeMap, Instr.row]⟩

theorem ldImm (x : RegIdx) (kk : Byte) : Statement (.ldImm x kk) :=
  ⟨(covers_op _ _ _).trans (by rw [encode, opField_formXkk]; decide), by simp [opcodeMap, Instr.row]⟩

theorem addImm (x : RegIdx) (kk : Byte) : Statement (.addImm x kk) :=
  ⟨(covers_op _ _ _).trans (by rw [encode, opField_formXkk]; decide), by simp [opcodeMap, Instr.row]⟩

theorem ldReg (x : RegIdx) (y : RegIdx) : Statement (.ldReg x y) :=
  ⟨(covers_op_n _ _ _).trans (by rw [encode, opField_formXyn, nField_formXyn]; decide), by simp [opcodeMap, Instr.row]⟩

theorem or (x : RegIdx) (y : RegIdx) : Statement (.or x y) :=
  ⟨(covers_op_n _ _ _).trans (by rw [encode, opField_formXyn, nField_formXyn]; decide), by simp [opcodeMap, Instr.row]⟩

theorem and (x : RegIdx) (y : RegIdx) : Statement (.and x y) :=
  ⟨(covers_op_n _ _ _).trans (by rw [encode, opField_formXyn, nField_formXyn]; decide), by simp [opcodeMap, Instr.row]⟩

theorem xor (x : RegIdx) (y : RegIdx) : Statement (.xor x y) :=
  ⟨(covers_op_n _ _ _).trans (by rw [encode, opField_formXyn, nField_formXyn]; decide), by simp [opcodeMap, Instr.row]⟩

theorem addReg (x : RegIdx) (y : RegIdx) : Statement (.addReg x y) :=
  ⟨(covers_op_n _ _ _).trans (by rw [encode, opField_formXyn, nField_formXyn]; decide), by simp [opcodeMap, Instr.row]⟩

theorem sub (x : RegIdx) (y : RegIdx) : Statement (.sub x y) :=
  ⟨(covers_op_n _ _ _).trans (by rw [encode, opField_formXyn, nField_formXyn]; decide), by simp [opcodeMap, Instr.row]⟩

theorem shr (x : RegIdx) (y : RegIdx) : Statement (.shr x y) :=
  ⟨(covers_op_n _ _ _).trans (by rw [encode, opField_formXyn, nField_formXyn]; decide), by simp [opcodeMap, Instr.row]⟩

theorem subn (x : RegIdx) (y : RegIdx) : Statement (.subn x y) :=
  ⟨(covers_op_n _ _ _).trans (by rw [encode, opField_formXyn, nField_formXyn]; decide), by simp [opcodeMap, Instr.row]⟩

theorem shl (x : RegIdx) (y : RegIdx) : Statement (.shl x y) :=
  ⟨(covers_op_n _ _ _).trans (by rw [encode, opField_formXyn, nField_formXyn]; decide), by simp [opcodeMap, Instr.row]⟩

theorem sneReg (x : RegIdx) (y : RegIdx) : Statement (.sneReg x y) :=
  ⟨(covers_op_n _ _ _).trans (by rw [encode, opField_formXyn, nField_formXyn]; decide), by simp [opcodeMap, Instr.row]⟩

theorem ldI (nnn : Addr12) : Statement (.ldI nnn) :=
  ⟨(covers_op _ _ _).trans (by rw [encode, opField_formNnn]; decide), by simp [opcodeMap, Instr.row]⟩

theorem jpV0 (nnn : Addr12) : Statement (.jpV0 nnn) :=
  ⟨(covers_op _ _ _).trans (by rw [encode, opField_formNnn]; decide), by simp [opcodeMap, Instr.row]⟩

theorem rnd (x : RegIdx) (kk : Byte) : Statement (.rnd x kk) :=
  ⟨(covers_op _ _ _).trans (by rw [encode, opField_formXkk]; decide), by simp [opcodeMap, Instr.row]⟩

theorem drw (x : RegIdx) (y : RegIdx) (n : Nibble) : Statement (.drw x y n) :=
  ⟨(covers_op _ _ _).trans (by rw [encode, opField_formXyn]; decide), by simp [opcodeMap, Instr.row]⟩

theorem skp (x : RegIdx) : Statement (.skp x) :=
  ⟨(covers_op_kk _ _ _).trans (by rw [encode, opField_formXkk, kkField_formXkk]; decide), by simp [opcodeMap, Instr.row]⟩

theorem sknp (x : RegIdx) : Statement (.sknp x) :=
  ⟨(covers_op_kk _ _ _).trans (by rw [encode, opField_formXkk, kkField_formXkk]; decide), by simp [opcodeMap, Instr.row]⟩

theorem ldVxDt (x : RegIdx) : Statement (.ldVxDt x) :=
  ⟨(covers_op_kk _ _ _).trans (by rw [encode, opField_formXkk, kkField_formXkk]; decide), by simp [opcodeMap, Instr.row]⟩

theorem ldVxK (x : RegIdx) : Statement (.ldVxK x) :=
  ⟨(covers_op_kk _ _ _).trans (by rw [encode, opField_formXkk, kkField_formXkk]; decide), by simp [opcodeMap, Instr.row]⟩

theorem ldDtVx (x : RegIdx) : Statement (.ldDtVx x) :=
  ⟨(covers_op_kk _ _ _).trans (by rw [encode, opField_formXkk, kkField_formXkk]; decide), by simp [opcodeMap, Instr.row]⟩

theorem ldStVx (x : RegIdx) : Statement (.ldStVx x) :=
  ⟨(covers_op_kk _ _ _).trans (by rw [encode, opField_formXkk, kkField_formXkk]; decide), by simp [opcodeMap, Instr.row]⟩

theorem addI (x : RegIdx) : Statement (.addI x) :=
  ⟨(covers_op_kk _ _ _).trans (by rw [encode, opField_formXkk, kkField_formXkk]; decide), by simp [opcodeMap, Instr.row]⟩

theorem ldF (x : RegIdx) : Statement (.ldF x) :=
  ⟨(covers_op_kk _ _ _).trans (by rw [encode, opField_formXkk, kkField_formXkk]; decide), by simp [opcodeMap, Instr.row]⟩

theorem ldB (x : RegIdx) : Statement (.ldB x) :=
  ⟨(covers_op_kk _ _ _).trans (by rw [encode, opField_formXkk, kkField_formXkk]; decide), by simp [opcodeMap, Instr.row]⟩

theorem stRegs (x : RegIdx) : Statement (.stRegs x) :=
  ⟨(covers_op_kk _ _ _).trans (by rw [encode, opField_formXkk, kkField_formXkk]; decide), by simp [opcodeMap, Instr.row]⟩

theorem ldRegs (x : RegIdx) : Statement (.ldRegs x) :=
  ⟨(covers_op_kk _ _ _).trans (by rw [encode, opField_formXkk, kkField_formXkk]; decide), by simp [opcodeMap, Instr.row]⟩

end Sys2Proof.Laws.Encoding
end

