-- ==== Sys2Proof/Tests/Slice0.lean ====
section
/-! SUPPORT. Tests of single steps and words, and a witness for every statement that has hypotheses. The expected values are
those of spec/95_test_vectors.md (E1 to E8, T1 to T175, P1 to P8), named at each test. -/

namespace Sys2Proof.Tests

open Sys2Proof.Machine

/-! Helpers -/

/-- The outcome is a next state with the property. -/
def nextHolds (o : Host.Outcome State Fault Refusal) (p : State → Bool) : Bool :=
  match o with
  | .next t => p t
  | .fault _ => false
  | .refused _ => false

/-- The outcome is that fault. -/
def faultIs (o : Host.Outcome State Fault Refusal) (e : Fault) : Bool :=
  match o with
  | .next _ => false
  | .fault f => decide (f = e)
  | .refused _ => false

theorem of_nextHolds {o : Host.Outcome State Fault Refusal} {p : State → Bool} (h : nextHolds o p = true) :
    ∃ t, o = .next t ∧ p t = true := by
  cases o with
  | next t => exact ⟨t, rfl, h⟩
  | fault e => cases h
  | refused r => cases h

theorem of_faultIs {o : Host.Outcome State Fault Refusal} {e : Fault} (h : faultIs o e = true) : o = .fault e := by
  cases o with
  | next t => cases h
  | fault f => rw [of_decide_eq_true h]
  | refused r => cases h

/-- The reset state with a word where the next step fetches. -/
def load (w : Nat) : State := State.reset.withFetchWord 16 w

/-- The word at pc of any state. -/
def withWord (s : State) (w : Nat) : State := s.withFetchWord 16 w

/-- The reset state with registers 1 and 2 set. -/
def regs12 (a b : Byte) : State := (State.reset.setReg 1 a).setReg 2 b

/-- The reset state with registers 1 and 0xF set. -/
def regs1F (a f : Byte) : State := (State.reset.setReg 1 a).setReg vf f

/-- The reset state with another pc. -/
def pcAt (p : Word) : State := State.reset.jump p

/-- The reset state with I and one register set. -/
def indexReg (i : Word) (x : RegIdx) (v : Byte) : State := (State.reset.setIndex i).setReg x v

/-- The reset state with a stack of that depth, every entry the same. -/
def depth (k : Fin 17) (e : Word) : State := { State.reset with sp := k, stack := Vector.replicate 16 e }

/-- The reset state with those timers. -/
def timers (d t : Byte) : State := { State.reset with dt := d, st := t }

/-- The reset state with one key down. -/
def keyDown (k : Nat) : State := { State.reset with keys := State.reset.keys.setIfInBounds k true }

/-- A sprite of one row at address 0x300, I there, and two registers for its place. -/
def spriteAt (row : Byte) (x : RegIdx) (px : Byte) (y : RegIdx) (py : Byte) : State :=
  (((State.reset.setIndex 0x300).setReg x px).setReg y py).store 0x300 [row]

/-! Words the checks refuse, and their decoding (T6 to T14) -/

theorem test_unknown_words_ill_formed :
    wellFormedWord 0x0000 = false ∧ wellFormedWord 0x0123 = false ∧ wellFormedWord 0x01E0 = false ∧
      wellFormedWord 0x5121 = false ∧ wellFormedWord 0x8128 = false ∧ wellFormedWord 0x812F = false ∧
      wellFormedWord 0x9121 = false ∧ wellFormedWord 0xE19F = false ∧ wellFormedWord 0xF100 = false ∧
      wellFormedWord 0xFFFF = false := by decide

theorem test_unknown_words_not_decoded :
    decodeWord 0x0000 = none ∧ decodeWord 0x0123 = none ∧ decodeWord 0x01E0 = none ∧ decodeWord 0x5121 = none ∧
      decodeWord 0x8128 = none ∧ decodeWord 0x812F = none ∧ decodeWord 0x9121 = none ∧ decodeWord 0xE19F = none ∧
      decodeWord 0xF100 = none ∧ decodeWord 0xFFFF = none := by decide

theorem test_opcode_map_rows : opcodeMap.length = 34 ∧ wellFormedWord 0x00E0 = true ∧ wellFormedWord 0xFF65 = true := by
  decide

/-! One word of every row, its bits written out from spec/30_encoding.md R56 -/

theorem test_decode_words_0_to_4 :
    decodeWord 0b0000000011100000 = some .cls ∧ decodeWord 0b0000000011101110 = some .ret ∧
      decodeWord 0b0001001000110100 = some (.jp 0x234) ∧ decodeWord 0b0010111111111110 = some (.call 0xFFE) ∧
      decodeWord 0b0011010101000010 = some (.seImm 5 0x42) ∧ decodeWord 0b0100101011001101 = some (.sneImm 0xA 0xCD) := by
  decide

theorem test_decode_words_5_to_7_9 :
    decodeWord 0b0101000110000000 = some (.seReg 1 8) ∧ decodeWord 0b0110111110101011 = some (.ldImm 0xF 0xAB) ∧
      decodeWord 0b0111001100000001 = some (.addImm 3 0x01) ∧ decodeWord 0b1001111000010000 = some (.sneReg 0xE 1) := by
  decide

theorem test_decode_words_8 :
    decodeWord 0b1000000110100000 = some (.ldReg 1 0xA) ∧ decodeWord 0b1000000110100001 = some (.or 1 0xA) ∧
      decodeWord 0b1000000110100010 = some (.and 1 0xA) ∧ decodeWord 0b1000000110100011 = some (.xor 1 0xA) ∧
      decodeWord 0b1000000110100100 = some (.addReg 1 0xA) ∧ decodeWord 0b1000000110100101 = some (.sub 1 0xA) ∧
      decodeWord 0b1000000110100110 = some (.shr 1 0xA) ∧ decodeWord 0b1000000110100111 = some (.subn 1 0xA) ∧
      decodeWord 0b1000000110101110 = some (.shl 1 0xA) := by decide

theorem test_decode_words_A_to_E :
    decodeWord 0b1010000000000001 = some (.ldI 0x001) ∧ decodeWord 0b1011001000010000 = some (.jpV0 0x210) ∧
      decodeWord 0b1100000111110000 = some (.rnd 1 0xF0) ∧ decodeWord 0b1101000100100101 = some (.drw 1 2 5) ∧
      decodeWord 0b1110100010011110 = some (.skp 8) ∧ decodeWord 0b1110000110100001 = some (.sknp 1) := by decide

theorem test_decode_words_F :
    decodeWord 0b1111000100000111 = some (.ldVxDt 1) ∧ decodeWord 0b1111010100001010 = some (.ldVxK 5) ∧
      decodeWord 0b1111000100010101 = some (.ldDtVx 1) ∧ decodeWord 0b1111000100011000 = some (.ldStVx 1) ∧
      decodeWord 0b1111000100011110 = some (.addI 1) ∧ decodeWord 0b1111100000101001 = some (.ldF 8) ∧
      decodeWord 0b1111000100110011 = some (.ldB 1) ∧ decodeWord 0b1111111101010101 = some (.stRegs 0xF) ∧
      decodeWord 0b1111010001100101 = some (.ldRegs 4) := by decide

/-- T1: the fields of 0xD125. -/
theorem test_fields :
    opField 0xD125 = 0xD ∧ xField 0xD125 = 1 ∧ yField 0xD125 = 2 ∧ nField 0xD125 = 5 ∧ kkField 0xD125 = 0x25 ∧
      nnnField 0xD125 = 0x125 := by decide

theorem test_encode_order : encode (.drw 1 2 5) = 0xD125 ∧ encode (.sneReg 0xE 1) = 0x9E10 ∧ encode (.ldF 8) = 0xF829 := by
  decide

theorem test_table_word : decodeTableWord 16 0x6A05 = some (.ldImm 0xA 0x05) ∧ decodeTableWord 16 0x8128 = none := by decide

/-! Fetch and the step (T2 to T6, T14) -/

theorem test_fetch_last_word :
    nextHolds (step (withWord (pcAt 0xFFE) 0x6001)) (fun t => t.reg 0 == 1 && t.pc == 0x1000) = true := by decide

theorem test_fetch_past_memory :
    faultIs (step (pcAt 0xFFF)) (.fetchOutOfBounds 0xFFF) = true ∧
      faultIs (step (pcAt 0x1000)) (.fetchOutOfBounds 0x1000) = true := by decide

theorem test_odd_pc :
    nextHolds (step (withWord (pcAt 0x201) 0x6107)) (fun t => t.reg 1 == 7 && t.pc == 0x203) = true := by decide

theorem test_unknown_word_step :
    nextHolds (step (timers 2 1)) (fun t => t.out == { beep := true, diagnostic := some 0x0000 } && t.pc == 0x202 &&
      t.dt == 1 && t.st == 0 && t.cur == 0) = true := by decide

theorem test_with_fetch_word_past_memory :
    nextHolds (step (withWord (pcAt 0xFFF) 0x6A05)) (fun t => t.reg 0xA == 5 && t.pc == 0x202) = true := by decide

/-! Display (T20, T22, T23, T25, T29 to T33) -/

theorem test_cls :
    nextHolds (step { load 0x00E0 with fb := Vector.replicate 32 (Vector.replicate 64 true), redraw := false })
      (fun t => t.fb == Display.clear && t.redraw && t.pc == 0x202) = true := by decide

theorem test_drw_lowest_right :
    nextHolds (step (withWord (spriteAt 0x80 0 56 1 31) 0xD011))
      (fun t => t.fbAt 2040 && !t.fbAt 2041 && t.reg vf == 0 && t.redraw && t.pc == 0x202) = true := by decide

theorem test_drw_bits_and_collision :
    nextHolds (step (withWord { spriteAt 0xA5 2 8 3 2 with
        fb := State.reset.fb.setIfInBounds 2 ((Vector.replicate 64 false).setIfInBounds 10 true) } 0xD231))
      (fun t => t.fbAt 136 && !t.fbAt 137 && !t.fbAt 138 && t.fbAt 141 && t.fbAt 143 && t.reg vf == 1) = true := by
  decide

/-! Control flow (T40 to T55) -/

theorem test_ret : nextHolds (step (withWord (depth 2 0x0ABC) 0x00EE))
    (fun t => t.sp == 1 && t.pc == 0x0ABE && t.stack == Vector.replicate 16 0x0ABC) = true := by decide

theorem test_ret_underflow : faultIs (step (load 0x00EE)) (.stackUnderflow 0x200) = true := by decide

theorem test_jp : nextHolds (step (load 0x1FFF)) (fun t => t.pc == 0x0FFF) = true := by decide

theorem test_jp_odd : nextHolds (step (load 0x1201)) (fun t => t.pc == 0x0201) = true := by decide

theorem test_call : nextHolds (step (withWord ((depth 15 0).jump 0x234) 0x2400))
    (fun t => t.stack[15] == 0x234 && t.stack[14] == 0 && t.sp == 16 && t.pc == 0x400) = true := by decide

theorem test_call_overflow :
    faultIs (step (withWord ((depth 16 0).jump 0x234) 0x2400)) (.stackOverflow 0x234) = true := by decide

theorem test_se_imm :
    nextHolds (step (withWord (State.reset.setReg 5 0x42) 0x3542)) (fun t => t.pc == 0x204) = true ∧
      nextHolds (step (withWord (State.reset.setReg 5 0x42) 0x3543)) (fun t => t.pc == 0x202) = true := by decide

theorem test_sne_imm :
    nextHolds (step (withWord (State.reset.setReg 5 0x42) 0x4542)) (fun t => t.pc == 0x202) = true ∧
      nextHolds (step (withWord (State.reset.setReg 5 0x42) 0x4543)) (fun t => t.pc == 0x204) = true := by decide

theorem test_se_reg :
    nextHolds (step (load 0x5330)) (fun t => t.pc == 0x204) = true ∧
      nextHolds (step (withWord (regs12 1 2) 0x5120)) (fun t => t.pc == 0x202) = true := by decide

theorem test_sne_reg :
    nextHolds (step (load 0x9330)) (fun t => t.pc == 0x202) = true ∧
      nextHolds (step (withWord (regs12 1 2) 0x9120)) (fun t => t.pc == 0x204) = true := by decide

theorem test_jp_v0_past_memory :
    nextHolds (step (withWord (State.reset.setReg 0 0xFF) 0xBFFF)) (fun t => t.pc == 0x10FE) = true := by decide

theorem test_jp_v0_register :
    nextHolds (step (withWord ((State.reset.setReg 0 0x02).setReg 2 0x80) 0xB210)) (fun t => t.pc == 0x0212) = true := by
  decide

/-! Arithmetic and logic (E3, E4, T60 to T105) -/

theorem test_ld_imm : nextHolds (step (load 0x6A05)) (fun t => t.reg 0xA == 5 && t.pc == 0x202) = true := by decide

theorem test_add_imm_wraps : nextHolds (step (withWord ((State.reset.setReg 3 0xFF).setReg vf 7) 0x7301))
    (fun t => t.reg 3 == 0 && t.reg vf == 7) = true := by decide

theorem test_add_imm_vf : nextHolds (step (withWord (State.reset.setReg vf 0xFE) 0x7F03)) (fun t => t.reg vf == 1) = true := by
  decide

theorem test_ld_reg : nextHolds (step (withWord (regs12 1 0x99) 0x8120)) (fun t => t.reg 1 == 0x99 && t.reg 2 == 0x99) = true := by
  decide

theorem test_or : nextHolds (exec (.or 1 2) ((regs12 0xAA 0x55).setReg vf 7)) (fun t => t.reg 1 == 0xFF && t.reg vf == 0) = true := by
  decide

theorem test_or_vf : nextHolds (exec (.or vf 1) (regs1F 0xF0 0x0F)) (fun t => t.reg vf == 0) = true := by decide

theorem test_and : nextHolds (exec (.and 1 2) ((regs12 0xAA 0x55).setReg vf 7)) (fun t => t.reg 1 == 0 && t.reg vf == 0) = true := by
  decide

theorem test_xor : nextHolds (exec (.xor 1 1) ((regs12 0xAA 0x55).setReg vf 7)) (fun t => t.reg 1 == 0 && t.reg vf == 0) = true := by
  decide

theorem test_add_reg_carry :
    nextHolds (exec (.addReg 1 2) (regs12 0x80 0x80)) (fun t => t.reg 1 == 0 && t.reg vf == 1) = true ∧
      nextHolds (exec (.addReg 1 2) (regs12 0x7F 0x80)) (fun t => t.reg 1 == 0xFF && t.reg vf == 0) = true := by decide

theorem test_add_reg_vf : nextHolds (exec (.addReg vf 1) (regs1F 0x02 0xFF)) (fun t => t.reg vf == 1) = true := by
  decide

theorem test_sub_borrow :
    nextHolds (exec (.sub 1 2) (regs12 0x10 0x11)) (fun t => t.reg 1 == 0xFF && t.reg vf == 0) = true ∧
      nextHolds (exec (.sub 1 2) (regs12 0x10 0x10)) (fun t => t.reg 1 == 0 && t.reg vf == 1) = true := by decide

theorem test_sub_vf :
    nextHolds (exec (.sub vf 1) (regs1F 0x03 0x05)) (fun t => t.reg vf == 0xFE) = true ∧
      nextHolds (exec (.sub 1 vf) (regs1F 0x0A 0x03)) (fun t => t.reg 1 == 0x09 && t.reg vf == 1) = true := by decide

theorem test_shr :
    nextHolds (exec (.shr 1 2) (regs12 0x33 0x05)) (fun t => t.reg 1 == 0x02 && t.reg vf == 1) = true := by decide

theorem test_shr_vf :
    nextHolds (exec (.shr vf 1) (regs1F 0x07 0x00)) (fun t => t.reg vf == 0x03) = true ∧
      nextHolds (exec (.shr 1 vf) (regs1F 0x55 0xFF)) (fun t => t.reg 1 == 0 && t.reg vf == 1) = true := by decide

theorem test_subn_borrow :
    nextHolds (exec (.subn 1 2) (regs12 0x01 0x00)) (fun t => t.reg 1 == 0xFF && t.reg vf == 0) = true ∧
      nextHolds (exec (.subn 1 2) (regs12 0x01 0x01)) (fun t => t.reg 1 == 0 && t.reg vf == 1) = true := by decide

theorem test_subn_vf :
    nextHolds (exec (.subn vf 1) (regs1F 0x09 0x02)) (fun t => t.reg vf == 0x08) = true ∧
      nextHolds (exec (.subn 1 vf) (regs1F 0x05 0x09)) (fun t => t.reg 1 == 0xFC && t.reg vf == 1) = true := by decide

theorem test_shl :
    nextHolds (exec (.shl 1 2) (regs12 0x33 0xC1)) (fun t => t.reg 1 == 0x82 && t.reg vf == 1) = true := by decide

theorem test_shl_vf :
    nextHolds (exec (.shl vf 1) (regs1F 0x81 0x00)) (fun t => t.reg vf == 0x02) = true ∧
      nextHolds (exec (.shl vf vf) (regs1F 0 0x80)) (fun t => t.reg vf == 0x02) = true := by decide

/-- T80: the mask 0 leaves 0 whatever is drawn. -/
theorem test_rnd_mask_zero : ∃ t, exec (.rnd 1 0) State.reset = .next t ∧ t.reg 1 = 0 := ⟨_, rfl, BitVec.zero_and⟩

/-! Index register and memory (E8, T110 to T129) -/

theorem test_ld_i : nextHolds (step (load 0xAFFF)) (fun t => t.index == 0x0FFF) = true := by decide

theorem test_add_i_wraps :
    nextHolds (exec (.addI 1) (indexReg 0xFFFF 1 2)) (fun t => t.index == 1 && t.reg vf == 0) = true ∧
      nextHolds (exec (.addI 1) (indexReg 0x0FFF 1 1)) (fun t => t.index == 0x1000) = true := by decide

theorem test_ld_f :
    nextHolds (exec (.ldF 1) (indexReg 0 1 0x0F)) (fun t => t.index == 0x004B) = true ∧
      nextHolds (exec (.ldF 1) (indexReg 0 1 0xFF)) (fun t => t.index == 0x04FB) = true := by decide

theorem test_ld_b_last : nextHolds (exec (.ldB 1) (indexReg 0x0FFD 1 109))
    (fun t => t.byteAt 0xFFD == 1 && t.byteAt 0xFFE == 0 && t.byteAt 0xFFF == 9 && t.index == 0xFFD) = true := by decide

theorem test_ld_b_past :
    faultIs (exec (.ldB 1) (indexReg 0x0FFE 1 109)) (.memoryOutOfBounds 0x1000) = true := by decide

theorem test_st_regs : nextHolds (exec (.stRegs 0) (indexReg 0x0FFF 0 0x5A))
    (fun t => t.byteAt 0xFFF == 0x5A && t.index == 0x1000) = true := by decide

theorem test_st_regs_low : nextHolds (exec (.stRegs 0) (indexReg 0x100 0 0x99))
    (fun t => t.byteAt 0x100 == 0x99 && t.byteAt 0x101 == 0 && t.index == 0x101) = true := by decide

theorem test_ld_regs_font : nextHolds (exec (.ldRegs 4) (indexReg 0x050 5 0x77))
    (fun t => t.reg 0 == 0xF0 && t.reg 1 == 0x90 && t.reg 3 == 0x90 && t.reg 4 == 0xF0 && t.reg 5 == 0x77 &&
      t.index == 0x055) = true := by decide

theorem test_ld_regs_past :
    faultIs (exec (.ldRegs 0xF) (indexReg 0x0FF1 0 0)) (.memoryOutOfBounds 0x1000) = true ∧
      faultIs (exec (.ldRegs 0) (indexReg 0xFFFF 0 0)) (.memoryOutOfBounds 0xFFFF) = true := by decide

/-! Keypad and timers (T140 to T153) -/

theorem test_skp : nextHolds (step (withWord ((keyDown 15).setReg 1 0x0F) 0xE19E)) (fun t => t.pc == 0x204) = true := by
  decide

theorem test_skp_error : faultIs (step (withWord (regs12 0x10 0) 0xE19E)) (.keypadIndexOutOfBounds 0x10) = true := by
  decide

theorem test_sknp : nextHolds (step (load 0xE1A1)) (fun t => t.pc == 0x204) = true := by decide

theorem test_sknp_error : faultIs (step (withWord (regs12 0xFF 0) 0xE1A1)) (.keypadIndexOutOfBounds 0xFF) = true := by
  decide

theorem test_ld_vx_dt : nextHolds (step (withWord (timers 0xFF 0) 0xF107)) (fun t => t.reg 1 == 0xFF && t.dt == 0xFE) = true := by
  decide

theorem test_ld_vx_k_lowest :
    nextHolds (step (withWord { keyDown 12 with keys := (keyDown 12).keys.setIfInBounds 3 true } 0xF50A))
      (fun t => t.reg 5 == 3 && t.pc == 0x202) = true := by decide

theorem test_ld_vx_k_waits : nextHolds (step (withWord ((timers 5 0).setReg 5 0x44) 0xF50A))
    (fun t => t.pc == 0x200 && t.reg 5 == 0x44 && t.dt == 4 && t.cur == 0xF50A) = true := by decide

theorem test_ld_dt_vx : nextHolds (step (withWord (regs12 0xFF 0) 0xF115)) (fun t => t.dt == 0xFE) = true ∧
    nextHolds (step (withWord (regs12 1 0) 0xF115)) (fun t => t.dt == 0) = true := by decide

theorem test_ld_st_vx : nextHolds (step (withWord (regs12 1 0) 0xF118)) (fun t => t.st == 0 && t.out.beep) = true ∧
    nextHolds (step (withWord (regs12 2 0) 0xF118)) (fun t => t.st == 1 && !t.out.beep) = true := by decide

/-! Reset and the host (E1, E2, T157, T172, spec/60_exceptions.md R151) -/

theorem test_reset_font : State.reset.byteAt 0x04F = 0 ∧ State.reset.byteAt 0x050 = 0xF0 ∧ State.reset.byteAt 0x09F = 0x80 ∧
    State.reset.byteAt 0x0A0 = 0 ∧ State.reset.byteAt 0xFFF = 0 := by decide

theorem test_memory_form_kept_by_font_store :
    (State.reset.store 0x050 [0xF0, 0x01]).mem = [(0x051, 0x01)] ∧
      ((State.reset.store 0x051 [0x01]).store 0x051 [0x90]).mem = [] := by decide

theorem test_load_small : (match State.reset.loadProgram [0x12, 0x00] with
    | .ok t => t.byteAt 0x200 == 0x12 && t.byteAt 0x201 == 0x00 && t.byteAt 0x202 == 0
    | .error _ => false) = true := by decide

theorem test_failed_step_keeps_sound :
    (stateAfter { timers 0 1 with pc := 0xFFF }).st = 1 ∧
      stepOutput { timers 0 1 with pc := 0xFFF } =
        { beep := false, diagnostic := none, error := some (.fetchOutOfBounds 0xFFF) } := by decide

theorem test_error_ordinals :
    errorOrdinal (faultKind (.fetchOutOfBounds 0)) = 1 ∧ errorOrdinal (faultKind (.drawOutOfBounds 0 0 0)) = 6 ∧
      errorOrdinal .unknownInstruction = 7 ∧ errorOrdinal (loadErrorKind .programTooLarge) = 8 ∧
      errorOrdinal (loadErrorKind .ioFailure) = 9 := by decide

/-! ## Witnesses: a state and operands that meet all hypotheses of a statement, each clause at a boundary -/

/-- The next state of an outcome, if it has one, else the state given. -/
def nextOr (o : Host.Outcome State Fault Refusal) (s : State) : State :=
  match o with
  | .next t => t
  | .fault _ => s
  | .refused _ => s

theorem nextOr_eq {o : Host.Outcome State Fault Refusal} (s : State) (h : nextHolds o (fun _ => true) = true) :
    o = .next (nextOr o s) := by
  cases o with
  | next t => rfl
  | fault e => cases h
  | refused r => cases h

/-- The instruction completes in that state. -/
def execs (i : Instr) (s : State) : Bool := nextHolds (exec i s) (fun _ => true)

/-- The step completes. -/
def steps (s : State) : Bool := nextHolds (step s) (fun _ => true)

theorem of_execs {i : Instr} {s : State} (h : execs i s = true) : ∃ t, exec i s = .next t :=
  ⟨_, nextOr_eq s h⟩

theorem of_steps {s : State} (h : steps s = true) : ∃ t, step s = .next t := ⟨_, nextOr_eq s h⟩

/-- The states of a run, step after step. -/
def run (s : State) : Nat → State
  | 0 => s
  | k + 1 => nextOr (step (run s k)) (run s k)

theorem run_step {s : State} {k : Nat} (h : steps (run s k) = true) : step (run s k) = .next (run s (k + 1)) :=
  nextOr_eq _ h

/-! Encoding -/

theorem witness_EncodeDecodeRoundTrip : decodeWord 0x00E0 = some .cls ∧ decodeWord 0xFF65 = some (.ldRegs 0xF) := by decide

theorem witness_DecoderFollowsOpcodeMap : decodeWord 0x00E0 = some .cls ∧ decodeWord 0xDFFF = some (.drw 0xF 0xF 0xF) := by
  decide

theorem witness_OpcodeRowsDisjoint :
    Instr.row (.skp 0) ∈ opcodeMap ∧ (Instr.row (.skp 0)).covers 0xEF9E = true ∧
      (Instr.row (.sknp 0)).covers 0xEF9E = false := by decide

theorem witness_WordFieldsByMaskAndShift : decode [0x6A, 0x05, 0xFF] = .ok (.ldImm 0xA 0x05, [0xFF]) := rfl

theorem witness_RegisterSkips_words :
    opField 0x5121 = 5 ∧ nField 0x5121 ≠ 0 ∧ opField 0x912F = 9 ∧ nField 0x912F ≠ 0 := by decide

/-! The step -/

theorem witness_FetchIsBigEndian : (pcAt 0xFFE).fetch = .ok 0x0000 ∧ (load 0x6A05).fetch = .ok 0x6A05 := ⟨rfl, rfl⟩

theorem witness_StepRunsDecodedInstruction :
    (load 0x6A05).pc.toNat + 1 < 4096 ∧ decodeWord ((load 0x6A05).wordAt 0x200) = some (.ldImm 0xA 0x05) ∧
      execs (.ldImm 0xA 0x05) (load 0x6A05) = true ∧
      (withWord (pcAt 0xFFE) 0x00EE).pc.toNat + 1 < 4096 ∧
      decodeWord ((withWord (pcAt 0xFFE) 0x00EE).wordAt 0xFFE) = some .ret ∧
      faultIs (exec .ret (withWord (pcAt 0xFFE) 0x00EE)) (.stackUnderflow 0xFFE) = true := by decide

theorem witness_UnknownWordIsReportedAndSkipped :
    (pcAt 0xFFE).pc.toNat + 1 < 4096 ∧ decodeWord ((pcAt 0xFFE).wordAt (pcAt 0xFFE).pc.toNat) = none := by decide

theorem witness_FetchErrorExactlyPastMemory :
    faultIs (step (pcAt 0xFFF)) (.fetchOutOfBounds 0xFFF) = true ∧ steps (pcAt 0xFFE) = true := by decide

theorem witness_ExecuteErrorsExactly_stack_keys :
    faultIs (exec .ret (depth 0 0)) (.stackUnderflow 0x200) = true ∧ execs .ret (depth 1 0) = true ∧
      faultIs (exec (.call 0) (depth 16 0)) (.stackOverflow 0x200) = true ∧ execs (.call 0) (depth 15 0) = true ∧
      faultIs (exec (.skp 1) (regs12 16 0)) (.keypadIndexOutOfBounds 16) = true ∧ execs (.skp 1) (regs12 15 0) = true ∧
      faultIs (exec (.sknp 1) (regs12 16 0)) (.keypadIndexOutOfBounds 16) = true ∧ execs (.sknp 1) (regs12 15 0) = true := by
  decide

theorem witness_ExecuteErrorsExactly_memory :
    faultIs (exec (.ldB 1) (indexReg 0xFFE 1 0)) (.memoryOutOfBounds 4096) = true ∧
      execs (.ldB 1) (indexReg 0xFFD 1 0) = true ∧
      faultIs (exec (.stRegs 1) (indexReg 0xFFF 1 0)) (.memoryOutOfBounds 4096) = true ∧
      execs (.stRegs 0) (indexReg 0xFFF 1 0) = true ∧
      faultIs (exec (.ldRegs 0xF) (indexReg 0xFF1 1 0)) (.memoryOutOfBounds 4096) = true ∧
      execs (.ldRegs 0xF) (indexReg 0xFF0 1 0) = true := by decide

/-- T24 to T28: memory before the screen, the screen whatever the bits, nothing checked with no rows. -/
theorem witness_ExecuteErrorsExactly_draw :
    faultIs (exec (.drw 0 1 3) (indexReg 0xFFE 0 60)) (.memoryOutOfBounds 4096) = true ∧
      faultIs (exec (.drw 0 1 1) (indexReg 0x2000 0 0)) (.memoryOutOfBounds 0x2000) = true ∧
      faultIs (exec (.drw 0 1 1) (indexReg 0xFFF 0 57)) (.drawOutOfBounds 57 0 1) = true ∧
      faultIs (exec (.drw 0 1 2) (indexReg 0x300 1 31)) (.drawOutOfBounds 0 31 2) = true ∧
      execs (.drw 0 1 1) (indexReg 0xFFF 0 56) = true ∧ execs (.drw 0 1 1) (indexReg 0x300 1 31) = true ∧
      nextHolds (exec (.drw 0 0 0) ((indexReg 0xFFFF 0 200).setReg vf 1)) (fun t => t.reg vf == 0 && t.redraw) = true := by
  decide

theorem witness_ErrorsIgnoreKeysAndDraws :
    step (withWord (regs12 16 0) 0xE19E) = .fault (.keypadIndexOutOfBounds 16) := of_faultIs (by decide)

theorem witness_OutputRecordOfStep : step (pcAt 0xFFF) = .fault (.fetchOutOfBounds 0xFFF) ∧ ∃ t, step (timers 0 1) = .next t :=
  ⟨of_faultIs (by decide), of_steps (by decide)⟩

/-! Timers -/

theorem witness_EveryStepTicksTimers :
    (∃ t, step (timers 1 1) = .next t) ∧ (timers 1 1).nextInstr = none ∧
      (∃ t, step (withWord (timers 0 0) 0x6A05) = .next t) ∧
      (withWord (timers 0 0) 0x6A05).nextInstr = some (.ldImm 0xA 5) :=
  ⟨of_steps (by decide), by decide, of_steps (by decide), by decide⟩

theorem witness_LoadedTimerTicksInSameStep :
    (withWord (regs12 1 0) 0xF115).nextInstr = some (.ldDtVx 1) ∧ (withWord (regs12 0 0) 0xF115).nextInstr = some (.ldDtVx 1) ∧
      (withWord (regs12 1 0) 0xF118).nextInstr = some (.ldStVx 1) ∧
      (withWord (regs12 0 0) 0xF118).nextInstr = some (.ldStVx 1) := by decide

/-- LD ST, V1 with V1 = 1: the first step is the last one. -/
theorem witness_SoundTimerBeepsAfterItsSteps_one :
    (∀ k, k < 1 → step (run (withWord (regs12 1 0) 0xF118) k) = .next (run (withWord (regs12 1 0) 0xF118) (k + 1))) ∧
      (run (withWord (regs12 1 0) 0xF118) 0).nextInstr = some (.ldStVx 1) ∧
      ((run (withWord (regs12 1 0) 0xF118) 0).reg 1).toNat = 1 ∧
      (∀ k, 1 ≤ k → k < 1 → ∀ y, (run (withWord (regs12 1 0) 0xF118) k).nextInstr ≠ some (.ldStVx y)) := by
  refine ⟨fun k hk => run_step ?_, by decide, by decide, fun k h1 h2 => absurd h1 (by omega)⟩
  obtain rfl : k = 0 := by omega
  decide

/-- LD ST, V1 with V1 = 2: the second step, an unknown word, beeps. -/
theorem witness_SoundTimerBeepsAfterItsSteps_two :
    (∀ k, k < 2 → step (run (withWord (regs12 2 0) 0xF118) k) = .next (run (withWord (regs12 2 0) 0xF118) (k + 1))) ∧
      (run (withWord (regs12 2 0) 0xF118) 0).nextInstr = some (.ldStVx 1) ∧
      ((run (withWord (regs12 2 0) 0xF118) 0).reg 1).toNat = 2 ∧
      (∀ k, 1 ≤ k → k < 2 → ∀ y, (run (withWord (regs12 2 0) 0xF118) k).nextInstr ≠ some (.ldStVx y)) := by
  have hrun : ∀ k : Fin 2, steps (run (withWord (regs12 2 0) 0xF118) k) = true := by decide
  have hnone : (run (withWord (regs12 2 0) 0xF118) 1).nextInstr = none := by decide
  refine ⟨fun k hk => run_step (hrun ⟨k, hk⟩), by decide, by decide, fun k h1 h2 y => ?_⟩
  obtain rfl : k = 1 := by omega
  rw [hnone]
  simp

/-- A delay of 2 loaded from V1, then LD V2, DT at once. -/
def delayProgram : State := (regs12 2 0).store 0x200 [0xF1, 0x15, 0xF2, 0x07]

theorem witness_DelayReadAfterSteps :
    (∀ k, k ≤ 1 → step (run delayProgram k) = .next (run delayProgram (k + 1))) ∧
      (run delayProgram 0).nextInstr = some (.ldDtVx 1) ∧
      (∀ k, 1 ≤ k → k < 1 → ∀ z, (run delayProgram k).nextInstr ≠ some (.ldDtVx z)) ∧
      (run delayProgram 1).nextInstr = some (.ldVxDt 2) ∧ (run delayProgram 2).reg 2 = 1 := by
  have hrun : ∀ k : Fin 2, steps (run delayProgram k) = true := by decide
  exact ⟨fun k hk => run_step (hrun ⟨k, by omega⟩), by decide, fun k h1 h2 => absurd h1 (by omega), by decide, by decide⟩

/-! Frames -/

theorem witness_InstructionsWriteOnlyTheirItems :
    (∃ t, exec (.drw 0 1 1) (indexReg 0xFFF 0 56) = .next t) ∧ .index ∉ writtenBy (.drw 0 1 1) ∧
      (∃ t, exec (.ldRegs 0xF) (indexReg 0xFF0 1 0) = .next t) ∧ .mem ∉ writtenBy (.ldRegs 0xF) :=
  ⟨of_execs (by decide), by decide, of_execs (by decide), by decide⟩

theorem witness_InstructionsWriteOnlyTheirRegisters :
    (∃ t, exec (.ldRegs 4) (indexReg 0x050 5 0x77) = .next t) ∧ writesReg (.ldRegs 4) 5 = false ∧
      (∃ t, exec (.sub 1 2) (regs12 3 4) = .next t) ∧ writesReg (.sub 1 2) 2 = false :=
  ⟨of_execs (by decide), by decide, of_execs (by decide), by decide⟩

theorem witness_InstructionsStoreOnlyTheirBytes :
    (∃ t, exec (.stRegs 1) (indexReg 0xFFE 0 9) = .next t) ∧
      ¬ ((indexReg 0xFFE 0 9).index.toNat ≤ 0xFFD ∧ 0xFFD < (indexReg 0xFFE 0 9).index.toNat + storedCount (.stRegs 1)) ∧
      (∃ t, exec .cls State.reset = .next t) ∧
      ¬ (State.reset.index.toNat ≤ 0 ∧ 0 < State.reset.index.toNat + storedCount .cls) :=
  ⟨of_execs (by decide), by decide, of_execs (by decide), by decide⟩

theorem witness_StepsKeepKeysAndAnnounceFrames :
    ∃ t, step (withWord { spriteAt 0x80 0 0 1 0 with redraw := false } 0xD011) = .next t ∧
      (t.fbAt 0 && t.redraw) = true :=
  of_nextHolds (by decide)

/-! The invariant -/

/-- A state at the bounds of the invariant: pc and every entry 0xFFE, a beep just given. -/
def bound : State := { (depth 15 0xFFE).jump 0xFFE with out := { beep := true, diagnostic := none } }

theorem witness_StepKeepsInvariant : bound.Inv ∧ ∃ t, step bound = .next t := by
  refine ⟨⟨by decide, ?_, by decide, by decide⟩, of_steps (by decide)⟩
  decide

theorem witness_StepKeepsInvariant_return : (withWord (depth 1 0xFFE) 0x00EE).Inv ∧
    nextHolds (step (withWord (depth 1 0xFFE) 0x00EE)) (fun t => t.pc == 0x1000) = true := by
  refine ⟨⟨by decide, ?_, by decide, by decide⟩, by decide⟩
  decide

theorem witness_MovesKeepInvariant :
    Reachable State.reset ∧ (∃ t, Move State.reset t) ∧ (∃ t, State.reset.setKey 15 true = some t) ∧
      ∃ t, State.reset.loadProgram [0x12, 0x00] = .ok t :=
  ⟨.start, ⟨_, .clearRedraw⟩, ⟨_, rfl⟩, ⟨_, rfl⟩⟩

/-! Laws across instructions -/

theorem witness_ReturnUndoesCall :
    ∃ t, exec (.call 0x400) (depth 15 0) = .next t ∧ (t.jump 0x456).stack = t.stack ∧ (t.jump 0x456).sp = t.sp :=
  ⟨_, nextOr_eq State.reset (by decide), rfl, rfl⟩

theorem witness_LoadUndoesStore :
    ∃ t, exec (.stRegs 0xF) (indexReg 0xFF0 0xF 7) = .next t ∧
      (∀ a, ((t.setReg 0xF 0).setIndex 0xFF0).byteAt a = t.byteAt a) ∧
      ((t.setReg 0xF 0).setIndex 0xFF0).index = (indexReg 0xFF0 0xF 7).index :=
  ⟨_, nextOr_eq State.reset (by decide), fun _ => rfl, rfl⟩

/-- P6: V0 and V1 stored over the word that follows. -/
theorem witness_StoredInstructionIsFetchedNext :
    (withWord (indexReg 0x202 0 0x62) 0xF155).nextInstr = some (.stRegs 1) ∧
      (withWord (indexReg 0x202 0 0x62) 0xF155).index = (withWord (indexReg 0x202 0 0x62) 0xF155).pc + 2 ∧
      1 ≤ (1 : RegIdx).toNat ∧ ∃ t, step (withWord (indexReg 0x202 0 0x62) 0xF155) = .next t :=
  ⟨by decide, by decide, by decide, of_steps (by decide)⟩

/-- E5: V[0xF] set to 0 between two draws; the first collides with nothing, and the second does. -/
theorem witness_DrawingTwiceRestores :
    ∃ t, exec (.drw 0 1 1) (spriteAt 0x80 0 56 1 31) = .next t ∧ t.reg vf = 0 ∧ (t.setReg vf 0).fb = t.fb ∧
      (∀ a, (t.setReg vf 0).byteAt a = t.byteAt a) ∧ (t.setReg vf 0).index = t.index ∧
      (t.setReg vf 0).reg 0 = (spriteAt 0x80 0 56 1 31).reg 0 ∧ (t.setReg vf 0).reg 1 = (spriteAt 0x80 0 56 1 31).reg 1 ∧
      nextHolds (exec (.drw 0 1 1) (t.setReg vf 0)) (fun v => v.reg vf == 1 && !v.fbAt 2040) = true :=
  ⟨_, nextOr_eq State.reset (by decide), by decide, rfl, fun _ => rfl, rfl, by decide, by decide, by decide⟩

/-- x is 0xF in both draws, with the old V[0xF] put back between them (T32 drawn twice). -/
theorem witness_DrawingTwiceRestores_vf :
    ∃ t, exec (.drw vf 0 1) (spriteAt 0x80 vf 3 0 0) = .next t ∧ (t.setReg vf 3).fb = t.fb ∧
      (∀ a, (t.setReg vf 3).byteAt a = t.byteAt a) ∧ (t.setReg vf 3).index = t.index ∧
      (t.setReg vf 3).reg vf = (spriteAt 0x80 vf 3 0 0).reg vf ∧ (t.setReg vf 3).reg 0 = (spriteAt 0x80 vf 3 0 0).reg 0 :=
  ⟨_, nextOr_eq State.reset (by decide), rfl, fun _ => rfl, rfl, by decide, by decide⟩

/-- Every set bit lands on a set pixel: the first draw collides, the second does not (log 20). -/
theorem test_drw_second_draw_on_set_pixels :
    nextHolds (exec (.drw 0 1 1) { spriteAt 0x80 0 0 1 0 with
        fb := State.reset.fb.setIfInBounds 0 ((Vector.replicate 64 false).setIfInBounds 0 true) })
      (fun t => t.reg vf == 1 && nextHolds (exec (.drw 0 1 1) t) (fun v => v.reg vf == 0 && v.fbAt 0)) = true := by decide

theorem witness_SelfJumpStays : (withWord (pcAt 0xFFE) 0x1FFE).AtSelfJump ∧ (load 0x1200).AtSelfJump := by
  refine ⟨⟨by decide, by decide⟩, ⟨by decide, by decide⟩⟩

/-! Instructions -/

theorem witness_DrwDrawsSprite :
    (0 : Nibble) = 0 ∧ (indexReg 0xFFF 0 56).index.toNat + (1 : Nibble).toNat ≤ 4096 ∧
      ((indexReg 0xFFF 0 56).reg 0).toNat + 7 ≤ 63 ∧ ((indexReg 0xFFF 0 56).reg 1).toNat + (1 : Nibble).toNat ≤ 32 ∧
      ((spriteAt 0x80 0 56 1 31).reg 0).toNat + 7 ≤ 63 ∧
      ((spriteAt 0x80 0 56 1 31).reg 1).toNat + (1 : Nibble).toNat ≤ 32 ∧
      (spriteAt 0x80 0 56 1 31).index.toNat + (1 : Nibble).toNat ≤ 4096 := by decide

/-- T40, T41: a self-jump at the reset pc, and a jump to the last address. -/
theorem witness_JpSetsPc :
    (load 0x1200).nextInstr = some (.jp 0x200) ∧ (0x200 : Addr12).toNat = (load 0x1200).pc.toNat ∧
      (load 0x1FFF).nextInstr = some (.jp 0xFFF) := by decide

theorem witness_JpV0AddsV0 :
    (withWord (State.reset.setReg 0 0) 0xBFFF).nextInstr = some (.jpV0 0xFFF) ∧
      0xFFF ≤ (0xFFF : Addr12).toNat + ((withWord (State.reset.setReg 0 0) 0xBFFF).reg 0).toNat ∧
      (withWord (State.reset.setReg 0 0xFF) 0xBF00).nextInstr = some (.jpV0 0xF00) ∧
      0xFFF ≤ (0xF00 : Addr12).toNat + ((withWord (State.reset.setReg 0 0xFF) 0xBF00).reg 0).toNat := by decide

theorem witness_RetReturns :
    (depth 1 0).sp.val = (0 : Fin 16).val + 1 ∧ (depth 16 0).sp.val = (15 : Fin 16).val + 1 ∧ (depth 0 0).sp = 0 := by decide

theorem witness_CallPushesAndJumps :
    (depth 0 0).sp.val = (0 : Fin 16).val ∧ (depth 15 0).sp.val = (15 : Fin 16).val ∧ (depth 16 0).sp = 16 := by decide

theorem witness_LogicWritesResultThenClearsFlag :
    (Instr.or 1 vf = .or 1 vf ∧ (0xFF : Byte) = (regs1F 0xF0 0x0F).reg 1 ||| (regs1F 0xF0 0x0F).reg vf) ∧
      (Instr.and 1 vf = .and 1 vf ∧ (0x00 : Byte) = (regs1F 0xF0 0x0F).reg 1 &&& (regs1F 0xF0 0x0F).reg vf) ∧
      (Instr.xor vf 1 = .xor vf 1 ∧ (0xFF : Byte) = (regs1F 0xF0 0x0F).reg vf ^^^ (regs1F 0xF0 0x0F).reg 1) := by decide

theorem witness_SubSubtractsAfterFlag :
    (0 : Byte) = (if ((regs12 0 1).reg 1).toNat < ((regs12 0 1).reg 2).toNat then 0 else 1) ∧
      (1 : Byte) = (if ((regs12 1 1).reg 1).toNat < ((regs12 1 1).reg 2).toNat then 0 else 1) := by decide

theorem witness_SubnSubtractsReversedAfterFlag :
    (0 : Byte) = (if ((regs12 1 0).reg 2).toNat < ((regs12 1 0).reg 1).toNat then 0 else 1) ∧
      (1 : Byte) = (if ((regs12 1 1).reg 2).toNat < ((regs12 1 1).reg 1).toNat then 0 else 1) := by decide

theorem witness_ShrShiftsSourceRight :
    (1 : Byte).toNat = ((regs12 0 5).reg 2).toNat % 2 ∧ (0 : Byte).toNat = ((regs12 0 0x80).reg 2).toNat % 2 := by decide

theorem witness_ShlShiftsSourceLeft :
    (1 : Byte).toNat = ((regs12 0 0x80).reg 2).toNat / 128 ∧ (0 : Byte).toNat = ((regs12 0 0x7F).reg 2).toNat / 128 := by decide

theorem witness_FlagRegisterAsBothOperands :
    execs (.or vf vf) (regs1F 0 0xFF) = true ∧ execs (.and vf vf) (regs1F 0 0xFF) = true ∧
      execs (.xor vf vf) (regs1F 0 0xFF) = true ∧ execs (.sub vf vf) (regs1F 0 0xFF) = true ∧
      execs (.shr vf vf) (regs1F 0 0xFF) = true ∧ execs (.subn vf vf) (regs1F 0 0xFF) = true ∧
      execs (.addReg vf vf) (regs1F 0 0xFF) = true ∧ execs (.shl vf vf) (regs1F 0 0xFF) = true := by decide

theorem witness_LdBStoresDigits : (indexReg 0xFFD 1 255).index.toNat + 2 < 4096 := by decide

theorem witness_StRegsStoresRange :
    (indexReg 0xFF0 1 255).index.toNat + (0xF : RegIdx).toNat < 4096 ∧
      (indexReg 0xFFF 1 255).index.toNat + (0 : RegIdx).toNat < 4096 := by decide

theorem witness_LdRegsLoadsRange :
    (indexReg 0xFF0 1 255).index.toNat + (0xF : RegIdx).toNat < 4096 ∧
      (indexReg 0xFFF 1 255).index.toNat + (0 : RegIdx).toNat < 4096 := by decide

theorem witness_KeySkips : ((regs12 15 0).reg 1).toNat ≤ 15 ∧ 15 < ((regs12 16 0).reg 1).toNat := by decide

theorem witness_LdVxDtReadsDelay : (withWord (timers 0xFF 0) 0xF107).nextInstr = some (.ldVxDt 1) := by decide

theorem witness_KeyWait_pressed :
    (keyDown 15).key (15 : RegIdx).toNat = true ∧ (∀ j, j < (15 : RegIdx).toNat → (keyDown 15).key j = false) ∧
      (keyDown 0).key (0 : RegIdx).toNat = true ∧ (∀ j, j < (0 : RegIdx).toNat → (keyDown 0).key j = false) := by decide

theorem witness_KeyWait_none :
    (∀ k, k < 16 → (load 0xF50A).key k = false) ∧ (load 0xF50A).nextInstr = some (.ldVxK 5) := by decide

theorem witness_LoadProgramCopies :
    (List.replicate 3584 (0xAA : Byte)).length ≤ 3584 ∧ 3584 < (List.replicate 3585 (0xAA : Byte)).length :=
  ⟨List.length_replicate.le, Nat.lt_of_lt_of_eq (by decide) List.length_replicate.symm⟩

theorem witness_HostWritesKeysAndRedraw :
    (∃ t, State.reset.setKey 15 true = some t ∧ t.key 15 = true) ∧ State.reset.setKey 16 true = none := by
  exact ⟨⟨_, rfl, by decide⟩, rfl⟩

end Sys2Proof.Tests
end

section
/-! SUPPORT. The two bytes of a word, and the big-endian fetch (spec/20_memory.md R31). -/

namespace Sys2Proof

@[simp] theorem highByte_wordOfBytes (hi lo : Byte) : highByte (wordOfBytes hi lo) = hi :=
  BitVec.extractLsb'_append_eq_left

@[simp] theorem lowByte_wordOfBytes (hi lo : Byte) : lowByte (wordOfBytes hi lo) = lo :=
  BitVec.extractLsb'_append_eq_right

end Sys2Proof

namespace Sys2Proof.Machine

@[simp] theorem State.highByte_wordAt (s : State) (a : Nat) : highByte (s.wordAt a) = s.byteAt a :=
  highByte_wordOfBytes _ _

@[simp] theorem State.lowByte_wordAt (s : State) (a : Nat) : lowByte (s.wordAt a) = s.byteAt (a + 1) :=
  lowByte_wordOfBytes _ _

/-- Settles O7: a fetched word is the word at pc, whose high and low byte are the bytes at pc and pc + 1. -/
theorem fetchIsBigEndian : Obligations.FetchIsBigEndian := by
  unfold Obligations.FetchIsBigEndian
  intro s w hfetch
  obtain ⟨-, rfl⟩ := State.fetch_eq_ok.mp hfetch
  exact ⟨s.highByte_wordAt s.pc.toNat, s.lowByte_wordAt s.pc.toNat⟩

end Sys2Proof.Machine
end

section
/-! SUPPORT. The six fields of a word as masked and shifted parts of it, and the length of an instruction in a list of bytes
(spec/30_encoding.md R52). -/

namespace Sys2Proof

/-! A run of `len` bits from bit `lo`, zero-extended: the form every field of R52 has -/

theorem setWidth_extractLsb'_eq_mask (w : Word) (lo len : Nat) :
    (w.extractLsb' lo len).setWidth 16 = (w &&& (BitVec.allOnes len).setWidth 16 <<< lo) >>> lo := by
  refine BitVec.eq_of_getLsbD_eq fun k hk => ?_
  by_cases hw : lo + k < 16
  · simp [hk, hw, Bool.and_comm]
  · simp [BitVec.getLsbD_of_ge w (lo + k) (by omega)]

theorem setWidth_extractLsb'_shiftLeft (w : Word) (lo len : Nat) :
    (w.extractLsb' lo len).setWidth 16 <<< lo = w &&& (BitVec.allOnes len).setWidth 16 <<< lo := by
  refine BitVec.eq_of_getLsbD_eq fun k hk => ?_
  by_cases hlo : k < lo
  · simp [hlo]
  · have hadd : lo + (k - lo) = k := by omega
    simp [hk, hlo, hadd, Bool.and_comm]

/-! The fields by mask and shift -/

theorem opField_unshifted (w : Word) : (opField w).setWidth 16 <<< 12 = w &&& 0xF000 :=
  setWidth_extractLsb'_shiftLeft w 12 4

theorem xField_eq_mask (w : Word) : (xField w).setWidth 16 = (w &&& 0x0F00) >>> 8 :=
  setWidth_extractLsb'_eq_mask w 8 4

theorem yField_eq_mask (w : Word) : (yField w).setWidth 16 = (w &&& 0x00F0) >>> 4 :=
  setWidth_extractLsb'_eq_mask w 4 4

theorem nField_eq_mask (w : Word) : (nField w).setWidth 16 = w &&& 0x000F :=
  setWidth_extractLsb'_eq_mask w 0 4

theorem kkField_eq_mask (w : Word) : (kkField w).setWidth 16 = w &&& 0x00FF :=
  setWidth_extractLsb'_eq_mask w 0 8

theorem nnnField_eq_mask (w : Word) : (nnnField w).setWidth 16 = w &&& 0x0FFF :=
  setWidth_extractLsb'_eq_mask w 0 12

/-! The fields that overlap -/

theorem kkField_eq_append (w : Word) : kkField w = yField w ++ nField w := by
  have hyn : yField w ++ nField w = kkField w := BitVec.extractLsb'_append_extractLsb'_eq_extractLsb' rfl
  exact hyn.symm

theorem nnnField_eq_append (w : Word) : nnnField w = xField w ++ yField w ++ nField w := by
  have hxy : xField w ++ yField w = w.extractLsb' 4 8 := BitVec.extractLsb'_append_extractLsb'_eq_extractLsb' rfl
  have hxyn : w.extractLsb' 4 8 ++ nField w = nnnField w := BitVec.extractLsb'_append_extractLsb'_eq_extractLsb' rfl
  rw [hxy, hxyn]

/-! The length of an instruction -/

theorem decode_eq_ok {hi lo : Byte} {rest rest' : List Byte} {i : Instr} :
    decode (hi :: lo :: rest) = .ok (i, rest') ↔ decodeWord (wordOfBytes hi lo) = some i ∧ rest' = rest := by
  cases hword : decodeWord (wordOfBytes hi lo) with
  | none => simp [decode, hword]
  | some j => simp [decode, hword, eq_comm]

/-- Settles O6: each field is a run of bits of the word, and a decoded instruction leaves all but its two bytes. -/
theorem wordFieldsByMaskAndShift : Obligations.WordFieldsByMaskAndShift := by
  unfold Obligations.WordFieldsByMaskAndShift
  refine ⟨fun w => ⟨opField_unshifted w, xField_eq_mask w, yField_eq_mask w, nField_eq_mask w, kkField_eq_mask w,
    nnnField_eq_mask w, kkField_eq_append w, nnnField_eq_append w⟩, ?_⟩
  intro hi lo rest rest' i hdecode
  exact (decode_eq_ok.mp hdecode).2

end Sys2Proof
end

section
/-! SUPPORT. Frames in sequence, the end of a step, and the step over an unknown word (spec/30_encoding.md R50, R58). -/

namespace Sys2Proof.Machine

/-! Frames -/

theorem Unchanged.trans {p : Piece} {s t u : State} (hst : Unchanged p s t) (htu : Unchanged p t u) : Unchanged p s u := by
  cases p with
  | mem => exact fun a => (htu a).trans (hst a)
  | regs => exact fun r => (htu r).trans (hst r)
  | _ => exact Eq.trans htu hst

theorem KeepsAllBut.trans {ps qs : List Piece} {s t u : State} (hst : KeepsAllBut ps s t) (htu : KeepsAllBut qs t u) :
    KeepsAllBut (ps ++ qs) s u := by
  intro p hp
  rw [List.mem_append, not_or] at hp
  obtain ⟨hps, hqs⟩ := hp
  exact (hst p hps).trans (htu p hqs)

theorem KeepsAllBut.mono {ps qs : List Piece} {s t : State} (h : KeepsAllBut ps s t) (hsub : ps ⊆ qs) :
    KeepsAllBut qs s t :=
  fun p hp => h p fun hmem => hp (hsub hmem)

theorem State.advance_keepsAllBut (s : State) (k : Word) : KeepsAllBut [.pc] s (s.advance k) := by
  intro p hp
  cases p with
  | pc => simp at hp
  | mem => exact fun _ => rfl
  | regs => exact fun _ => rfl
  | _ => rfl

/-! The end of a step (spec/60_exceptions.md R142, R143) -/

/-- A timer counts down and stops at 0. -/
theorem toNat_timerTick (v : Byte) : (if v = 0 then 0 else v - 1).toNat = v.toNat - 1 := by
  split <;> bv_omega

section Complete

variable (t : State) (w : Word) (d : Option Word)

@[simp] theorem State.complete_pc : (t.complete w d).pc = t.pc := rfl

@[simp] theorem State.complete_cur : (t.complete w d).cur = w := rfl

@[simp] theorem State.complete_diagnostic : (t.complete w d).out.diagnostic = d := rfl

@[simp] theorem State.complete_dt_toNat : (t.complete w d).dt.toNat = t.dt.toNat - 1 := toNat_timerTick t.dt

@[simp] theorem State.complete_st_toNat : (t.complete w d).st.toNat = t.st.toNat - 1 := toNat_timerTick t.st

@[simp] theorem State.complete_beep : (t.complete w d).out.beep = true ↔ t.st = 1 := beq_iff_eq

theorem State.complete_keepsAllBut : KeepsAllBut [.dt, .st, .out, .cur] t (t.complete w d) := by
  intro p hp
  cases p with
  | dt | st | out | cur => simp at hp
  | mem => exact fun _ => rfl
  | regs => exact fun _ => rfl
  | _ => rfl

end Complete

/-! The unknown word -/

theorem step_of_unknown {s : State} (hpc : s.pc.toNat + 1 < Config.memSize)
    (hnone : decodeWord (s.wordAt s.pc.toNat) = none) :
    step s = .next ((s.advance 2).complete (s.wordAt s.pc.toNat) (some (s.wordAt s.pc.toNat))) :=
  step_eq_next.mpr ⟨hpc, .inl ⟨hnone, rfl⟩⟩

/-- Settles O10: the step over an unknown word advances pc by 2 and then ends like any other, with the word as its
diagnostic. -/
theorem unknownWordIsReportedAndSkipped : Obligations.UnknownWordIsReportedAndSkipped := by
  unfold Obligations.UnknownWordIsReportedAndSkipped
  intro s hpc hnone
  have hframe := (s.advance_keepsAllBut 2).trans
    ((s.advance 2).complete_keepsAllBut (s.wordAt s.pc.toNat) (some (s.wordAt s.pc.toNat)))
  exact ⟨_, step_of_unknown hpc hnone, State.complete_pc .., State.complete_diagnostic .., State.complete_cur ..,
    State.complete_dt_toNat .., State.complete_st_toNat .., State.complete_beep .., hframe.mono (by decide)⟩

end Sys2Proof.Machine
end

section
/-! SUPPORT. The high nibble of a decoded word, and the rows of the opcode map that the high nibble alone selects
(spec/30_encoding.md R55). -/

namespace Sys2Proof

theorem opField_encode_of_decodeGroup0 {w : Word} {i : Instr} (h : decodeGroup0 w = some i) :
    opField (encode i) = 0x0 := by
  unfold decodeGroup0 at h
  split at h
  · cases h
    rfl
  · split at h <;> cases h
    rfl

theorem opField_encode_of_decodeGroup8 {x y : RegIdx} {n : Nibble} {i : Instr} (h : decodeGroup8 x y n = some i) :
    opField (encode i) = 0x8 := by
  unfold decodeGroup8 at h
  split at h <;> cases h <;> exact opField_formXyn ..

theorem opField_encode_of_decodeGroupE {x : RegIdx} {kk : Byte} {i : Instr} (h : decodeGroupE x kk = some i) :
    opField (encode i) = 0xE := by
  unfold decodeGroupE at h
  split at h <;> cases h <;> exact opField_formXkk ..

theorem opField_encode_of_decodeGroupF {x : RegIdx} {kk : Byte} {i : Instr} (h : decodeGroupF x kk = some i) :
    opField (encode i) = 0xF := by
  unfold decodeGroupF at h
  split at h <;> cases h <;> exact opField_formXkk ..

/-- The first level of the decoder loses nothing: an instruction's own word has the high nibble of every word that is
read as it. -/
theorem opField_encode_of_decodeWord {w : Word} {i : Instr} (h : decodeWord w = some i) :
    opField (encode i) = opField w := by
  unfold decodeWord at h
  split at h
  case h_1 hop => exact (opField_encode_of_decodeGroup0 h).trans hop.symm
  case h_9 hop => exact (opField_encode_of_decodeGroup8 h).trans hop.symm
  case h_15 hop => exact (opField_encode_of_decodeGroupE h).trans hop.symm
  case h_16 hop => exact (opField_encode_of_decodeGroupF h).trans hop.symm
  case h_17 => cases h
  case h_6 hop | h_10 hop =>
    split at h <;> cases h
    exact (opField_formXyn ..).trans hop.symm
  case h_14 hop =>
    cases h
    exact (opField_formXyn ..).trans hop.symm
  case h_2 hop | h_3 hop | h_11 hop | h_12 hop =>
    cases h
    exact (opField_formNnn ..).trans hop.symm
  case h_4 hop | h_5 hop | h_7 hop | h_8 hop | h_13 hop =>
    cases h
    exact (opField_formXkk ..).trans hop.symm

theorem mask_op_eq_iff {w : Word} {op : Nibble} : w &&& 0xF000 = formNnn op 0 ↔ opField w = op := by
  rw [mask_op]
  constructor
  · intro h
    simpa using congrArg opField h
  · rintro rfl
    rfl

end Sys2Proof

namespace Sys2Proof.Machine

/-- Where the high nibble alone selects the instruction, its words are those of mask 0xF000 with that nibble. -/
theorem readsAs_of_opField {op : Nibble} {i : Word → Instr} (hdecode : ∀ w, opField w = op → decodeWord w = some (i w))
    (hencode : ∀ w, opField (encode (i w)) = op) : ReadsAs 0xF000 (formNnn op 0) i := by
  intro w
  rw [mask_op_eq_iff]
  exact ⟨fun h => (opField_encode_of_decodeWord h).symm.trans (hencode w), hdecode w⟩

end Sys2Proof.Machine
end

section
/-! SUPPORT. The step that runs the next instruction, the step past memory, and the jump (spec/30_encoding.md R50,
spec/60_exceptions.md R131, spec/41_control_flow.md R80). -/

namespace Sys2Proof.Machine

/-! The next instruction -/

theorem State.nextInstr_eq_some {s : State} {i : Instr} :
    s.nextInstr = some i ↔ s.pc.toNat + 1 < Config.memSize ∧ decodeWord (s.wordAt s.pc.toNat) = some i := by
  unfold State.nextInstr
  cases hfetch : s.fetch with
  | ok w =>
    obtain ⟨hpc, rfl⟩ := State.fetch_eq_ok.mp hfetch
    simp [hpc]
  | error e =>
    obtain ⟨hpc, -⟩ := State.fetch_eq_error.mp hfetch
    simp [Nat.not_lt.mpr hpc]

theorem State.nextInstr_congr {s t : State} (hpc : Unchanged .pc s t) (hmem : Unchanged .mem s t) :
    t.nextInstr = s.nextInstr := by
  have hpc : t.pc = s.pc := hpc
  have hmem : ∀ a, t.byteAt a = s.byteAt a := hmem
  simp only [State.nextInstr, State.fetch, State.wordAt, hpc, hmem]

theorem step_of_nextInstr {s u : State} {i : Instr} (hnext : s.nextInstr = some i) (hexec : exec i s = .next u) :
    step s = .next (u.complete (s.wordAt s.pc.toNat) none) := by
  obtain ⟨hpc, hdecode⟩ := State.nextInstr_eq_some.mp hnext
  exact step_eq_next.mpr ⟨hpc, .inr ⟨i, u, hdecode, hexec, rfl⟩⟩

theorem step_of_pc_past {s : State} (hpc : Config.memSize ≤ s.pc.toNat + 1) :
    step s = .fault (.fetchOutOfBounds s.pc) :=
  step_eq_fault.mpr (.inl ⟨hpc, rfl⟩)

/-! The jump and its targets -/

theorem State.jump_keepsAllBut (s : State) (a : Word) : KeepsAllBut [.pc] s (s.jump a) := by
  intro p hp
  cases p with
  | pc => simp at hp
  | mem => exact fun _ => rfl
  | regs => exact fun _ => rfl
  | _ => rfl

@[simp] theorem toNat_zextAddr (nnn : Addr12) : (zextAddr nnn).toNat = nnn.toNat :=
  BitVec.toNat_setWidth_of_le (by decide)

@[simp] theorem toNat_zextByte (b : Byte) : (zextByte b).toNat = b.toNat :=
  BitVec.toNat_setWidth_of_le (by decide)

/-- The sum of a literal and a byte never wraps (spec/41_control_flow.md R88). -/
theorem toNat_zextAddr_add_zextByte (nnn : Addr12) (b : Byte) :
    (zextAddr nnn + zextByte b).toNat = nnn.toNat + b.toNat := by
  have hnnn : nnn.toNat < 4096 := nnn.isLt
  have hb : b.toNat < 256 := b.isLt
  rw [BitVec.toNat_add, toNat_zextAddr, toNat_zextByte]
  omega

end Sys2Proof.Machine
end

section
/-! SUPPORT. The jumps and the byte skips (spec/41_control_flow.md R82, R84, R85, R88). -/

namespace Sys2Proof.Machine

/-! The words of each -/

theorem readsAs_jp : ReadsAs 0xF000 0x1000 (fun w => .jp (nnnField w)) :=
  readsAs_of_opField (op := 0x1) (fun w hop => by simp [decodeWord, hop]) (fun _ => opField_formNnn ..)

theorem readsAs_seImm : ReadsAs 0xF000 0x3000 (fun w => .seImm (xField w) (kkField w)) :=
  readsAs_of_opField (op := 0x3) (fun w hop => by simp [decodeWord, hop]) (fun _ => opField_formXkk ..)

theorem readsAs_sneImm : ReadsAs 0xF000 0x4000 (fun w => .sneImm (xField w) (kkField w)) :=
  readsAs_of_opField (op := 0x4) (fun w hop => by simp [decodeWord, hop]) (fun _ => opField_formXkk ..)

theorem readsAs_jpV0 : ReadsAs 0xF000 0xB000 (fun w => .jpV0 (nnnField w)) :=
  readsAs_of_opField (op := 0xB) (fun w hop => by simp [decodeWord, hop]) (fun _ => opField_formNnn ..)

/-! The step of a jump -/

theorem step_jp {s : State} {nnn : Addr12} (hnext : s.nextInstr = some (.jp nnn)) :
    step s = .next ((s.jump (zextAddr nnn)).complete (s.wordAt s.pc.toNat) none) :=
  step_of_nextInstr hnext (exec_jp s nnn)

theorem step_jpV0 {s : State} {nnn : Addr12} (hnext : s.nextInstr = some (.jpV0 nnn)) :
    step s = .next ((s.jump (zextAddr nnn + zextByte (s.reg 0))).complete (s.wordAt s.pc.toNat) none) :=
  step_of_nextInstr hnext (exec_jpV0 s nnn)

/-- Memory stays over the step of a jump, so one to the address it came from is fetched again. -/
theorem nextInstr_complete_jump_self (s : State) {a : Word} (ha : a = s.pc) (w : Word) (d : Option Word) :
    ((s.jump a).complete w d).nextInstr = s.nextInstr :=
  State.nextInstr_congr ha (((s.jump_keepsAllBut a).trans ((s.jump a).complete_keepsAllBut w d)) .mem (by decide))

/-- Settles O34: JP is a jump to its literal; its step is that jump and the end of a step, which keeps pc and memory. -/
theorem jpSetsPc : Obligations.JpSetsPc := by
  unfold Obligations.JpSetsPc
  refine ⟨fun s nnn => ⟨⟨_, exec_jp s nnn, toNat_zextAddr nnn, s.jump_keepsAllBut _⟩, fun hnext => ?_⟩, readsAs_jp⟩
  refine ⟨_, step_jp hnext, State.complete_dt_toNat .., State.complete_st_toNat .., fun hself => ?_, ?_⟩
  · have htarget : zextAddr nnn = s.pc := BitVec.eq_of_toNat_eq ((toNat_zextAddr nnn).trans hself)
    exact ⟨htarget, (nextInstr_complete_jump_self s htarget ..).trans hnext⟩
  · rintro rfl
    exact step_of_pc_past (by decide : Config.memSize ≤ (zextAddr 0xFFF).toNat + 1)

/-- Settles O36: both skips advance pc, by the model's test for equality and for inequality. -/
theorem byteSkips : Obligations.ByteSkips := by
  unfold Obligations.ByteSkips
  refine ⟨fun s x kk => ⟨⟨_, exec_seImm s x kk, ?_, s.advance_keepsAllBut _⟩,
    ⟨_, exec_sneImm s x kk, ?_, s.advance_keepsAllBut _⟩⟩, readsAs_seImm, readsAs_sneImm⟩
  · simp
  · by_cases heq : s.reg x = kk <;> simp [heq]

/-- Settles O38: the sum does not wrap, so pc is at most 0xFFF + 0xFF, and from 0xFFF on it is past the last fetch. -/
theorem jpV0AddsV0 : Obligations.JpV0AddsV0 := by
  unfold Obligations.JpV0AddsV0
  refine ⟨fun s nnn => ?_, readsAs_jpV0⟩
  have hsum := toNat_zextAddr_add_zextByte nnn (s.reg 0)
  refine ⟨⟨_, exec_jpV0 s nnn, hsum, ?_, s.jump_keepsAllBut _⟩, fun hnext hpast => ⟨_, step_jpV0 hnext, ?_⟩⟩
  · have hnnn : nnn.toNat < 4096 := nnn.isLt
    have hV0 : (s.reg 0).toNat < 256 := (s.reg 0).isLt
    rw [State.jump_pc, hsum]
    omega
  · have hmem : Config.memSize = 4096 := rfl
    refine step_of_pc_past ?_
    rw [State.complete_pc, State.jump_pc, hsum]
    omega

end Sys2Proof.Machine
end

section
/-! SUPPORT. An instruction that writes one register, and the words that the high nibble and `n` select
(spec/10_state.md R12, spec/30_encoding.md R55). -/

namespace Sys2Proof

theorem mask_op_n_eq_iff {w : Word} {op n : Nibble} :
    w &&& 0xF00F = formXyn op 0 0 n ↔ opField w = op ∧ nField w = n := by
  rw [mask_op_n]
  constructor
  · intro h
    have hop := congrArg opField h
    have hn := congrArg nField h
    rw [opField_formXyn, opField_formXyn] at hop
    rw [nField_formXyn, nField_formXyn] at hn
    exact ⟨hop, hn⟩
  · rintro ⟨rfl, rfl⟩
    rfl

theorem decodeWord_of_opField_8 {w : Word} (hop : opField w = 0x8) :
    decodeWord w = decodeGroup8 (xField w) (yField w) (nField w) := by
  simp [decodeWord, hop]

theorem nField_encode_of_decodeGroup8 {x y : RegIdx} {n : Nibble} {i : Instr} (h : decodeGroup8 x y n = some i) :
    nField (encode i) = n := by
  unfold decodeGroup8 at h
  split at h <;> cases h <;> exact nField_formXyn ..

end Sys2Proof

namespace Sys2Proof.Machine

/-! Group 8 -/

/-- The words of a group 8 instruction are those of mask 0xF00F with high nibble 8 and its own `n`. -/
theorem readsAs_of_decodeGroup8 {n : Nibble} {i : RegIdx → RegIdx → Instr}
    (hdecode : ∀ x y, decodeGroup8 x y n = some (i x y)) :
    ReadsAs 0xF00F (formXyn 0x8 0 0 n) (fun w => i (xField w) (yField w)) := by
  intro w
  rw [mask_op_n_eq_iff]
  constructor
  · intro h
    have hop : opField w = 0x8 :=
      (opField_encode_of_decodeWord h).symm.trans (opField_encode_of_decodeGroup8 (hdecode ..))
    rw [decodeWord_of_opField_8 hop] at h
    exact ⟨hop, (nField_encode_of_decodeGroup8 h).symm.trans (nField_encode_of_decodeGroup8 (hdecode ..))⟩
  · rintro ⟨hop, rfl⟩
    exact (decodeWord_of_opField_8 hop).trans (hdecode ..)

/-! The write of one register -/

theorem State.reg_setReg_of_ne (s : State) {x r : RegIdx} (v : Byte) (h : r ≠ x) : (s.setReg x v).reg r = s.reg r := by
  rw [State.reg_setReg, if_neg h]

theorem State.setReg_keepsAllBut (s : State) (x : RegIdx) (v : Byte) : KeepsAllBut [.regs] s (s.setReg x v) := by
  intro p hp
  cases p with
  | regs => simp at hp
  | mem => exact fun _ => rfl
  | _ => rfl

theorem State.setReg_advance_keepsAllBut (s : State) (x : RegIdx) (v : Byte) (k : Word) :
    KeepsAllBut [.pc, .regs] s ((s.setReg x v).advance k) :=
  ((s.setReg_keepsAllBut x v).trans ((s.setReg x v).advance_keepsAllBut k)).mono (by decide)

/-- What an instruction leaves whose only effect is one register and the advance of pc. -/
theorem next_of_exec_setReg {s : State} {i : Instr} {x : RegIdx} {v : Byte}
    (hexec : exec i s = .next ((s.setReg x v).advance 2)) :
    ∃ t, exec i s = .next t ∧ t.reg x = v ∧ (∀ r, r ≠ x → t.reg r = s.reg r) ∧ t.pc = s.pc + 2 ∧
      KeepsAllBut [.pc, .regs] s t :=
  ⟨_, hexec, s.reg_setReg_same x v, fun _ hr => s.reg_setReg_of_ne v hr, rfl, s.setReg_advance_keepsAllBut x v 2⟩

end Sys2Proof.Machine
end

section
/-! SUPPORT. The register loads and the byte addition (spec/42_alu.md R90 to R92). -/

namespace Sys2Proof.Machine

/-! The words of each -/

theorem readsAs_ldImm : ReadsAs 0xF000 0x6000 (fun w => .ldImm (xField w) (kkField w)) :=
  readsAs_of_opField (op := 0x6) (fun w hop => by simp [decodeWord, hop]) (fun _ => opField_formXkk ..)

theorem readsAs_addImm : ReadsAs 0xF000 0x7000 (fun w => .addImm (xField w) (kkField w)) :=
  readsAs_of_opField (op := 0x7) (fun w hop => by simp [decodeWord, hop]) (fun _ => opField_formXkk ..)

theorem readsAs_ldReg : ReadsAs 0xF00F 0x8000 (fun w => .ldReg (xField w) (yField w)) :=
  readsAs_of_decodeGroup8 (n := 0x0) fun _ _ => rfl

/-- Settles O39: both loads are the write of one register and the advance of pc. -/
theorem loadsWriteDestination : Obligations.LoadsWriteDestination := by
  unfold Obligations.LoadsWriteDestination
  exact ⟨fun s x y kk => ⟨next_of_exec_setReg (exec_ldImm s x kk), next_of_exec_setReg (exec_ldReg s x y)⟩,
    readsAs_ldImm, readsAs_ldReg⟩

/-- Settles O40: the addition is the write of one register and the advance of pc, and the sum of bytes is their sum
modulo 256. -/
theorem addImmAddsWithoutCarry : Obligations.AddImmAddsWithoutCarry := by
  unfold Obligations.AddImmAddsWithoutCarry
  refine ⟨fun s x kk => ?_, readsAs_addImm⟩
  obtain ⟨t, hexec, hx, hrest⟩ := next_of_exec_setReg (exec_addImm s x kk)
  have hsum : (t.reg x).toNat = ((s.reg x).toNat + kk.toNat) % 256 := by
    rw [hx, BitVec.toNat_add]
  exact ⟨t, hexec, hsum, hrest⟩

end Sys2Proof.Machine
end

section
/-! SUPPORT. An instruction that writes the index register, and the words that the high nibble and `kk` select
(spec/10_state.md R14, spec/30_encoding.md R55). -/

namespace Sys2Proof

theorem mask_op_kk_eq_iff {w : Word} {op : Nibble} {kk : Byte} :
    w &&& 0xF0FF = formXkk op 0 kk ↔ opField w = op ∧ kkField w = kk := by
  rw [mask_op_kk]
  constructor
  · intro h
    have hop := congrArg opField h
    have hkk := congrArg kkField h
    rw [opField_formXkk, opField_formXkk] at hop
    rw [kkField_formXkk, kkField_formXkk] at hkk
    exact ⟨hop, hkk⟩
  · rintro ⟨rfl, rfl⟩
    rfl

theorem decodeWord_of_opField_F {w : Word} (hop : opField w = 0xF) :
    decodeWord w = decodeGroupF (xField w) (kkField w) := by
  simp [decodeWord, hop]

theorem kkField_encode_of_decodeGroupF {x : RegIdx} {kk : Byte} {i : Instr} (h : decodeGroupF x kk = some i) :
    kkField (encode i) = kk := by
  unfold decodeGroupF at h
  split at h <;> cases h <;> exact kkField_formXkk ..

end Sys2Proof

namespace Sys2Proof.Machine

/-! Group F -/

/-- The words of a group F instruction are those of mask 0xF0FF with high nibble F and its own `kk`. -/
theorem readsAs_of_decodeGroupF {kk : Byte} {i : RegIdx → Instr} (hdecode : ∀ x, decodeGroupF x kk = some (i x)) :
    ReadsAs 0xF0FF (formXkk 0xF 0 kk) (fun w => i (xField w)) := by
  intro w
  rw [mask_op_kk_eq_iff]
  constructor
  · intro h
    have hop : opField w = 0xF :=
      (opField_encode_of_decodeWord h).symm.trans (opField_encode_of_decodeGroupF (hdecode _))
    rw [decodeWord_of_opField_F hop] at h
    exact ⟨hop, (kkField_encode_of_decodeGroupF h).symm.trans (kkField_encode_of_decodeGroupF (hdecode _))⟩
  · rintro ⟨hop, rfl⟩
    exact (decodeWord_of_opField_F hop).trans (hdecode _)

/-! The write of the index register -/

theorem State.setIndex_keepsAllBut (s : State) (v : Word) : KeepsAllBut [.index] s (s.setIndex v) := by
  intro p hp
  cases p with
  | index => simp at hp
  | mem => exact fun _ => rfl
  | regs => exact fun _ => rfl
  | _ => rfl

theorem State.setIndex_advance_keepsAllBut (s : State) (v k : Word) :
    KeepsAllBut [.pc, .index] s ((s.setIndex v).advance k) :=
  ((s.setIndex_keepsAllBut v).trans ((s.setIndex v).advance_keepsAllBut k)).mono (by decide)

/-- What an instruction leaves whose only effect is the index register and the advance of pc. -/
theorem next_of_exec_setIndex {s : State} {i : Instr} {v : Word} {n : Nat}
    (hexec : exec i s = .next ((s.setIndex v).advance 2)) (hv : v.toNat = n) :
    ∃ t, exec i s = .next t ∧ t.index.toNat = n ∧ t.pc = s.pc + 2 ∧ KeepsAllBut [.pc, .index] s t :=
  ⟨_, hexec, hv, rfl, s.setIndex_advance_keepsAllBut v 2⟩

end Sys2Proof.Machine
end

section
/-! SUPPORT. The index load and the index addition (spec/43_index_memory.md R110, R111). -/

namespace Sys2Proof.Machine

/-! The words of each -/

theorem readsAs_ldI : ReadsAs 0xF000 0xA000 (fun w => .ldI (nnnField w)) :=
  readsAs_of_opField (op := 0xA) (fun w hop => by simp [decodeWord, hop]) (fun _ => opField_formNnn ..)

theorem readsAs_addI : ReadsAs 0xF0FF 0xF01E (fun w => .addI (xField w)) :=
  readsAs_of_decodeGroupF (kk := 0x1E) fun _ => rfl

/-- The sum of the index register and a byte wraps at 65536 (spec/43_index_memory.md R111). -/
theorem toNat_add_zextByte (a : Word) (b : Byte) : (a + zextByte b).toNat = (a.toNat + b.toNat) % 65536 := by
  rw [BitVec.toNat_add, toNat_zextByte]

/-- Settles O49: both are the write of the index register and the advance of pc, by the literal and by the wrapping sum. -/
theorem indexLoadsAndAdds : Obligations.IndexLoadsAndAdds := by
  unfold Obligations.IndexLoadsAndAdds
  exact ⟨fun s nnn => next_of_exec_setIndex (exec_ldI s nnn) (toNat_zextAddr nnn),
    fun s x => next_of_exec_setIndex (exec_addI s x) (toNat_add_zextByte s.index (s.reg x)),
    readsAs_ldI, readsAs_addI⟩

end Sys2Proof.Machine
end

section
/-! SUPPORT. The load from the delay timer (spec/44_keypad_timers.md R122). -/

namespace Sys2Proof.Machine

theorem readsAs_ldVxDt : ReadsAs 0xF0FF 0xF007 (fun w => .ldVxDt (xField w)) :=
  readsAs_of_decodeGroupF (kk := 0x07) fun _ => rfl

/-- The timer tick writes no register. -/
@[simp] theorem State.complete_reg (t : State) (w : Word) (d : Option Word) (r : RegIdx) :
    (t.complete w d).reg r = t.reg r := rfl

/-- Settles O55: the load is the write of one register and the advance of pc; its step only then ticks the timers, which
keeps the register. -/
theorem ldVxDtReadsDelay : Obligations.LdVxDtReadsDelay := by
  unfold Obligations.LdVxDtReadsDelay
  refine ⟨fun s x => ?_, readsAs_ldVxDt⟩
  obtain ⟨t, hexec, hx, hrest⟩ := next_of_exec_setReg (exec_ldVxDt s x)
  exact ⟨⟨t, hexec, hx, hrest⟩,
    fun hnext => ⟨_, step_of_nextInstr hnext hexec, (State.complete_reg ..).trans hx⟩⟩

end Sys2Proof.Machine
end

section
/-! SUPPORT. The error that the execute phase tests for, and the fetch error as no instruction's
(spec/60_exceptions.md R131 to R136). -/

namespace Sys2Proof.Machine

/-! The error of an instruction -/

/-- The error an instruction's rule tests for before it changes anything; `none` where it completes. -/
def executeError (s : State) : Instr → Option Fault
  | .ret => if s.sp = 0 then some (.stackUnderflow s.pc) else none
  | .call _ => if s.sp = 16 then some (.stackOverflow s.pc) else none
  | .drw x y n => s.drawError (s.reg x) (s.reg y) n
  | .skp x | .sknp x => keyError (s.reg x)
  | .ldB _ => s.indexError 3
  | .stRegs x | .ldRegs x => s.indexError (rangeCount x)
  | _ => none

/-- The execute phase fails exactly with that error. -/
theorem exec_eq_fault {i : Instr} {s : State} {e : Fault} : exec i s = .fault e ↔ executeError s i = some e := by
  cases i with
  | ret | call | drw | skp | sknp | ldB | stRegs | ldRegs => exact finish_eq_fault
  | ldVxK x =>
    rw [exec_ldVxK]
    cases s.firstKey <;> exact iff_of_false nofun nofun
  | _ => exact iff_of_false nofun nofun

/-! No tested error is the fetch error -/

theorem State.indexError_ne_fetchOutOfBounds (s : State) (count : Nat) (p : Word) :
    s.indexError count ≠ some (.fetchOutOfBounds p) := by
  intro h
  obtain ⟨-, -, hmem⟩ := rangeError_eq_some.mp h
  cases hmem

theorem keyError_ne_fetchOutOfBounds (v : Byte) (p : Word) : keyError v ≠ some (.fetchOutOfBounds p) := by
  intro h
  obtain ⟨-, hkey⟩ := keyError_eq_some.mp h
  cases hkey

theorem State.drawError_ne_fetchOutOfBounds (s : State) (px py : Byte) (n : Nibble) (p : Word) :
    s.drawError px py n ≠ some (.fetchOutOfBounds p) := by
  intro h
  obtain hindex | ⟨-, hrect⟩ := drawError_eq_some.mp h
  · exact s.indexError_ne_fetchOutOfBounds _ p hindex
  · obtain ⟨-, -, hdraw⟩ := rectError_eq_some.mp hrect
    cases hdraw

theorem executeError_ne_fetchOutOfBounds (s : State) (i : Instr) (p : Word) :
    executeError s i ≠ some (.fetchOutOfBounds p) := by
  cases i with
  | ret | call => simp [executeError]
  | drw => exact s.drawError_ne_fetchOutOfBounds _ _ _ p
  | skp | sknp => exact keyError_ne_fetchOutOfBounds _ p
  | ldB | stRegs | ldRegs => exact s.indexError_ne_fetchOutOfBounds _ p
  | _ => exact nofun

theorem exec_ne_fetchOutOfBounds (i : Instr) (s : State) (p : Word) : exec i s ≠ .fault (.fetchOutOfBounds p) :=
  fun h => executeError_ne_fetchOutOfBounds s i p (exec_eq_fault.mp h)

/-- Settles O11: a step fails in its fetch, which is the bound and the error with pc, or in its execute phase, which never
raises the fetch error. -/
theorem fetchErrorExactlyPastMemory : Obligations.FetchErrorExactlyPastMemory := by
  unfold Obligations.FetchErrorExactlyPastMemory
  intro s p
  constructor
  · intro hstep
    obtain ⟨hpast, hfault⟩ | ⟨-, i, -, hexec⟩ := step_eq_fault.mp hstep
    · exact ⟨hpast, Fault.fetchOutOfBounds.inj hfault⟩
    · exact absurd hexec (exec_ne_fetchOutOfBounds i s p)
  · rintro ⟨hpast, rfl⟩
    exact step_of_pc_past hpast

end Sys2Proof.Machine
end

section
/-! SUPPORT. The host's load of a program (spec/70_reset_and_hazards.md R161). -/

namespace Sys2Proof.Machine

/-! The store of a run of bytes -/

theorem State.byteAt_store_add (s : State) (base : Nat) {bytes : List Byte} {k : Nat} (hk : k < bytes.length) :
    (s.store base bytes).byteAt (base + k) = bytes.getD k 0 := by
  have hin : base ≤ base + k ∧ base + k < base + bytes.length := by omega
  rw [s.store_byteAt, if_pos hin, Nat.add_sub_cancel_left]

theorem State.byteAt_store_of_outside (s : State) {base a : Nat} {bytes : List Byte}
    (ha : a < base ∨ base + bytes.length ≤ a) : (s.store base bytes).byteAt a = s.byteAt a := by
  have hout : ¬ (base ≤ a ∧ a < base + bytes.length) := by omega
  rw [s.store_byteAt, if_neg hout]

theorem State.store_keepsAllBut (s : State) (base : Nat) (bytes : List Byte) :
    KeepsAllBut [.mem] s (s.store base bytes) := by
  intro p hp
  cases p with
  | mem => simp at hp
  | regs => exact s.store_reg base bytes
  | _ => rfl

/-! The two outcomes of a load -/

theorem State.loadProgram_of_le (s : State) {bytes : List Byte} (h : bytes.length ≤ Config.maxProgram) :
    s.loadProgram bytes = .ok (s.store Config.programBase bytes) :=
  if_neg (Nat.not_lt.mpr h)

theorem State.loadProgram_of_lt (s : State) {bytes : List Byte} (h : Config.maxProgram < bytes.length) :
    s.loadProgram bytes = .error .programTooLarge :=
  if_pos h

/-- Settles O59: a load that fits is the store of its bytes from 0x200 up, which writes those bytes and nothing else; a
longer one is rejected. -/
theorem loadProgramCopies : Obligations.LoadProgramCopies := by
  unfold Obligations.LoadProgramCopies
  intro s bytes
  refine ⟨fun hfits => ⟨s.store Config.programBase bytes, s.loadProgram_of_le hfits, ?_, ?_, ?_⟩, s.loadProgram_of_lt⟩
  · exact fun k hk => s.byteAt_store_add Config.programBase hk
  · exact fun a ha => s.byteAt_store_of_outside ha
  · exact s.store_keepsAllBut Config.programBase bytes

end Sys2Proof.Machine
end

section
/-! SUPPORT. Decoding and encoding undo each other (spec/30_encoding.md R53 to R56; the exact-match reading is decision D2,
log 7). -/

namespace Sys2Proof

/-! Decoding an encoded instruction -/

theorem decodeWord_of_opField_E {w : Word} (hop : opField w = 0xE) :
    decodeWord w = decodeGroupE (xField w) (kkField w) := by
  simp [decodeWord, hop]

theorem decodeWord_formXyn_8 (x y : RegIdx) (n : Nibble) : decodeWord (formXyn 0x8 x y n) = decodeGroup8 x y n := by
  rw [decodeWord_of_opField_8 (opField_formXyn ..), xField_formXyn, yField_formXyn, nField_formXyn]

theorem decodeWord_formXkk_E (x : RegIdx) (kk : Byte) : decodeWord (formXkk 0xE x kk) = decodeGroupE x kk := by
  rw [decodeWord_of_opField_E (opField_formXkk ..), xField_formXkk, kkField_formXkk]

theorem decodeWord_formXkk_F (x : RegIdx) (kk : Byte) : decodeWord (formXkk 0xF x kk) = decodeGroupF x kk := by
  rw [decodeWord_of_opField_F (opField_formXkk ..), xField_formXkk, kkField_formXkk]

/-- Settles O2: the word of an instruction has its operands in its fields, and its high nibble, with `n` or `kk` in the
groups that need a second level, selects the instruction again. -/
theorem decodeEncodeRoundTrip : Obligations.DecodeEncodeRoundTrip := by
  unfold Obligations.DecodeEncodeRoundTrip
  intro i
  cases i with
  | cls | ret => rfl
  | ldReg | or | and | xor | addReg | sub | shr | subn | shl => exact decodeWord_formXyn_8 ..
  | skp | sknp => exact decodeWord_formXkk_E ..
  | ldVxDt | ldVxK | ldDtVx | ldStVx | addI | ldF | ldB | stRegs | ldRegs => exact decodeWord_formXkk_F ..
  | _ => simp [decodeWord, encode]

/-! Encoding a decoded word -/

theorem encode_of_decodeGroup0 {w : Word} {i : Instr} (h : decodeGroup0 w = some i) : encode i = w := by
  unfold decodeGroup0 at h
  split at h
  case isTrue hcls =>
    cases h
    exact hcls.symm
  case isFalse =>
    split at h
    case isTrue hret =>
      cases h
      exact hret.symm
    case isFalse => cases h

theorem encode_of_decodeGroup8 {x y : RegIdx} {n : Nibble} {i : Instr} (h : decodeGroup8 x y n = some i) :
    encode i = formXyn 0x8 x y n := by
  unfold decodeGroup8 at h
  split at h <;> cases h <;> rfl

theorem encode_of_decodeGroupE {x : RegIdx} {kk : Byte} {i : Instr} (h : decodeGroupE x kk = some i) :
    encode i = formXkk 0xE x kk := by
  unfold decodeGroupE at h
  split at h <;> cases h <;> rfl

theorem encode_of_decodeGroupF {x : RegIdx} {kk : Byte} {i : Instr} (h : decodeGroupF x kk = some i) :
    encode i = formXkk 0xF x kk := by
  unfold decodeGroupF at h
  split at h <;> cases h <;> rfl

theorem formNnn_fields {w : Word} {op : Nibble} (hop : opField w = op) : formNnn op (nnnField w) = w :=
  hop ▸ (word_eq_formNnn w).symm

theorem formXkk_fields {w : Word} {op : Nibble} (hop : opField w = op) : formXkk op (xField w) (kkField w) = w :=
  hop ▸ (word_eq_formXkk w).symm

theorem formXyn_fields {w : Word} {op n : Nibble} (hop : opField w = op) (hn : nField w = n) :
    formXyn op (xField w) (yField w) n = w :=
  hop ▸ hn ▸ (word_eq_formXyn w).symm

/-- Settles O3: each branch of the decoder takes the operands from the fields that the encoder puts them in, and has
tested the rest of the word. -/
theorem encodeDecodeRoundTrip : Obligations.EncodeDecodeRoundTrip := by
  unfold Obligations.EncodeDecodeRoundTrip
  intro w i h
  unfold decodeWord at h
  split at h
  case h_1 => exact encode_of_decodeGroup0 h
  case h_9 hop => exact (encode_of_decodeGroup8 h).trans (formXyn_fields hop rfl)
  case h_15 hop => exact (encode_of_decodeGroupE h).trans (formXkk_fields hop)
  case h_16 hop => exact (encode_of_decodeGroupF h).trans (formXkk_fields hop)
  case h_17 => cases h
  case h_6 hop | h_10 hop =>
    split at h
    case isTrue hn =>
      cases h
      exact formXyn_fields hop hn
    case isFalse => cases h
  case h_14 hop =>
    cases h
    exact formXyn_fields hop rfl
  case h_2 hop | h_3 hop | h_11 hop | h_12 hop =>
    cases h
    exact formNnn_fields hop
  case h_4 hop | h_5 hop | h_7 hop | h_8 hop | h_13 hop =>
    cases h
    exact formXkk_fields hop

/-- Settles O1: the decoder run on each of the words. -/
theorem sampleWordsDecode : Obligations.SampleWordsDecode := by
  unfold Obligations.SampleWordsDecode
  decide

end Sys2Proof
end

section
/-! SUPPORT. The rows of the opcode map and the decoder select the same words (spec/30_encoding.md R55, R56; decision D2,
log 7). -/

namespace Sys2Proof

/-! Every instruction's word is covered by its row -/

theorem encode_covered_by_row (i : Instr) : Laws.Encoding.Statement i := by
  cases i with
  | cls => exact Laws.Encoding.cls
  | ret => exact Laws.Encoding.ret
  | jp nnn => exact Laws.Encoding.jp nnn
  | call nnn => exact Laws.Encoding.call nnn
  | seImm x kk => exact Laws.Encoding.seImm x kk
  | sneImm x kk => exact Laws.Encoding.sneImm x kk
  | seReg x y => exact Laws.Encoding.seReg x y
  | ldImm x kk => exact Laws.Encoding.ldImm x kk
  | addImm x kk => exact Laws.Encoding.addImm x kk
  | ldReg x y => exact Laws.Encoding.ldReg x y
  | or x y => exact Laws.Encoding.or x y
  | and x y => exact Laws.Encoding.and x y
  | xor x y => exact Laws.Encoding.xor x y
  | addReg x y => exact Laws.Encoding.addReg x y
  | sub x y => exact Laws.Encoding.sub x y
  | shr x y => exact Laws.Encoding.shr x y
  | subn x y => exact Laws.Encoding.subn x y
  | shl x y => exact Laws.Encoding.shl x y
  | sneReg x y => exact Laws.Encoding.sneReg x y
  | ldI nnn => exact Laws.Encoding.ldI nnn
  | jpV0 nnn => exact Laws.Encoding.jpV0 nnn
  | rnd x kk => exact Laws.Encoding.rnd x kk
  | drw x y n => exact Laws.Encoding.drw x y n
  | skp x => exact Laws.Encoding.skp x
  | sknp x => exact Laws.Encoding.sknp x
  | ldVxDt x => exact Laws.Encoding.ldVxDt x
  | ldVxK x => exact Laws.Encoding.ldVxK x
  | ldDtVx x => exact Laws.Encoding.ldDtVx x
  | ldStVx x => exact Laws.Encoding.ldStVx x
  | addI x => exact Laws.Encoding.addI x
  | ldF x => exact Laws.Encoding.ldF x
  | ldB x => exact Laws.Encoding.ldB x
  | stRegs x => exact Laws.Encoding.stRegs x
  | ldRegs x => exact Laws.Encoding.ldRegs x

theorem row_of_decodeWord {w : Word} {i : Instr} (h : decodeWord w = some i) :
    i.row ∈ opcodeMap ∧ i.row.covers w = true := by
  obtain rfl : encode i = w := encodeDecodeRoundTrip w i h
  obtain ⟨hcovers, hmem⟩ := encode_covered_by_row i
  exact ⟨hmem, hcovers⟩

/-! Every row of the map is the row of an instruction -/

/-- One instruction of each row, in the order of the map. -/
def rowInstrs : List Instr :=
  [.cls, .ret, .jp 0, .call 0, .seImm 0 0, .sneImm 0 0, .seReg 0 0, .ldImm 0 0, .addImm 0 0,
    .ldReg 0 0, .or 0 0, .and 0 0, .xor 0 0, .addReg 0 0, .sub 0 0, .shr 0 0, .subn 0 0, .shl 0 0,
    .sneReg 0 0, .ldI 0, .jpV0 0, .rnd 0 0, .drw 0 0 0, .skp 0, .sknp 0,
    .ldVxDt 0, .ldVxK 0, .ldDtVx 0, .ldStVx 0, .addI 0, .ldF 0, .ldB 0, .stRegs 0, .ldRegs 0]

theorem opcodeMap_eq_map_row : opcodeMap = rowInstrs.map Instr.row := rfl

theorem exists_row_of_mem_opcodeMap {r : OpRow} (h : r ∈ opcodeMap) : ∃ i : Instr, i.row = r := by
  rw [opcodeMap_eq_map_row] at h
  obtain ⟨i, -, hi⟩ := List.mem_map.mp h
  exact ⟨i, hi⟩

end Sys2Proof

namespace Sys2Proof.Machine

/-! The words of a row are read as instructions of that row -/

theorem readsAs_encode (i : Instr) : ReadsAs 0xFFFF (encode i) (fun _ => i) := by
  intro w
  have hmask : w &&& 0xFFFF = w := BitVec.and_allOnes
  rw [hmask]
  constructor
  · intro h
    exact (encodeDecodeRoundTrip w i h).symm
  · rintro rfl
    exact decodeEncodeRoundTrip i

/-- Where the high nibble and `n` select the instruction, its words are those of mask 0xF00F. -/
theorem readsAs_of_opField_nField {op n : Nibble} {i : Word → Instr}
    (hdecode : ∀ w, opField w = op → nField w = n → decodeWord w = some (i w))
    (hencode : ∀ w, encode (i w) = formXyn op (xField w) (yField w) n) : ReadsAs 0xF00F (formXyn op 0 0 n) i := by
  intro w
  rw [mask_op_n_eq_iff]
  constructor
  · intro h
    have hw : w = formXyn op (xField w) (yField w) n := (encodeDecodeRoundTrip w _ h).symm.trans (hencode w)
    constructor
    · exact (congrArg opField hw).trans (opField_formXyn ..)
    · exact (congrArg nField hw).trans (nField_formXyn ..)
  · rintro ⟨hop, hn⟩
    exact hdecode w hop hn

/-- The words of a group E instruction are those of mask 0xF0FF with high nibble E and its own `kk`. -/
theorem readsAs_of_decodeGroupE {kk : Byte} {i : RegIdx → Instr} (hdecode : ∀ x, decodeGroupE x kk = some (i x)) :
    ReadsAs 0xF0FF (formXkk 0xE 0 kk) (fun w => i (xField w)) := by
  intro w
  rw [mask_op_kk_eq_iff]
  constructor
  · intro h
    have hw : w = formXkk 0xE (xField w) kk :=
      (encodeDecodeRoundTrip w _ h).symm.trans (encode_of_decodeGroupE (hdecode _))
    constructor
    · exact (congrArg opField hw).trans (opField_formXkk ..)
    · exact (congrArg kkField hw).trans (kkField_formXkk ..)
  · rintro ⟨hop, rfl⟩
    exact (decodeWord_of_opField_E hop).trans (hdecode _)

theorem exists_readsAs_row (i : Instr) :
    ∃ reading : Word → Instr, ReadsAs i.row.mask i.row.value reading ∧ ∀ w, (reading w).row = i.row := by
  cases i with
  | cls => exact ⟨_, readsAs_encode .cls, fun _ => rfl⟩
  | ret => exact ⟨_, readsAs_encode .ret, fun _ => rfl⟩
  | jp => exact ⟨_, readsAs_jp, fun _ => rfl⟩
  | call =>
    exact ⟨fun w => .call (nnnField w), readsAs_of_opField (op := 0x2) (fun w hop => by simp [decodeWord, hop])
      (fun _ => opField_formNnn ..), fun _ => rfl⟩
  | seImm => exact ⟨_, readsAs_seImm, fun _ => rfl⟩
  | sneImm => exact ⟨_, readsAs_sneImm, fun _ => rfl⟩
  | seReg =>
    exact ⟨fun w => .seReg (xField w) (yField w),
      readsAs_of_opField_nField (op := 0x5) (n := 0) (fun w hop hn => by simp [decodeWord, hop, hn]) (fun _ => rfl),
      fun _ => rfl⟩
  | ldImm => exact ⟨_, readsAs_ldImm, fun _ => rfl⟩
  | addImm => exact ⟨_, readsAs_addImm, fun _ => rfl⟩
  | ldReg => exact ⟨_, readsAs_ldReg, fun _ => rfl⟩
  | or => exact ⟨_, readsAs_of_decodeGroup8 (n := 0x1) (i := .or) fun _ _ => rfl, fun _ => rfl⟩
  | and => exact ⟨_, readsAs_of_decodeGroup8 (n := 0x2) (i := .and) fun _ _ => rfl, fun _ => rfl⟩
  | xor => exact ⟨_, readsAs_of_decodeGroup8 (n := 0x3) (i := .xor) fun _ _ => rfl, fun _ => rfl⟩
  | addReg => exact ⟨_, readsAs_of_decodeGroup8 (n := 0x4) (i := .addReg) fun _ _ => rfl, fun _ => rfl⟩
  | sub => exact ⟨_, readsAs_of_decodeGroup8 (n := 0x5) (i := .sub) fun _ _ => rfl, fun _ => rfl⟩
  | shr => exact ⟨_, readsAs_of_decodeGroup8 (n := 0x6) (i := .shr) fun _ _ => rfl, fun _ => rfl⟩
  | subn => exact ⟨_, readsAs_of_decodeGroup8 (n := 0x7) (i := .subn) fun _ _ => rfl, fun _ => rfl⟩
  | shl => exact ⟨_, readsAs_of_decodeGroup8 (n := 0xE) (i := .shl) fun _ _ => rfl, fun _ => rfl⟩
  | sneReg =>
    exact ⟨fun w => .sneReg (xField w) (yField w),
      readsAs_of_opField_nField (op := 0x9) (n := 0) (fun w hop hn => by simp [decodeWord, hop, hn]) (fun _ => rfl),
      fun _ => rfl⟩
  | ldI => exact ⟨_, readsAs_ldI, fun _ => rfl⟩
  | jpV0 => exact ⟨_, readsAs_jpV0, fun _ => rfl⟩
  | rnd =>
    exact ⟨fun w => .rnd (xField w) (kkField w), readsAs_of_opField (op := 0xC) (fun w hop => by simp [decodeWord, hop])
      (fun _ => opField_formXkk ..), fun _ => rfl⟩
  | drw =>
    exact ⟨fun w => .drw (xField w) (yField w) (nField w),
      readsAs_of_opField (op := 0xD) (fun w hop => by simp [decodeWord, hop]) (fun _ => opField_formXyn ..), fun _ => rfl⟩
  | skp => exact ⟨_, readsAs_of_decodeGroupE (kk := 0x9E) (i := .skp) fun _ => rfl, fun _ => rfl⟩
  | sknp => exact ⟨_, readsAs_of_decodeGroupE (kk := 0xA1) (i := .sknp) fun _ => rfl, fun _ => rfl⟩
  | ldVxDt => exact ⟨_, readsAs_ldVxDt, fun _ => rfl⟩
  | ldVxK => exact ⟨_, readsAs_of_decodeGroupF (kk := 0x0A) (i := .ldVxK) fun _ => rfl, fun _ => rfl⟩
  | ldDtVx => exact ⟨_, readsAs_of_decodeGroupF (kk := 0x15) (i := .ldDtVx) fun _ => rfl, fun _ => rfl⟩
  | ldStVx => exact ⟨_, readsAs_of_decodeGroupF (kk := 0x18) (i := .ldStVx) fun _ => rfl, fun _ => rfl⟩
  | addI => exact ⟨_, readsAs_addI, fun _ => rfl⟩
  | ldF => exact ⟨_, readsAs_of_decodeGroupF (kk := 0x29) (i := .ldF) fun _ => rfl, fun _ => rfl⟩
  | ldB => exact ⟨_, readsAs_of_decodeGroupF (kk := 0x33) (i := .ldB) fun _ => rfl, fun _ => rfl⟩
  | stRegs => exact ⟨_, readsAs_of_decodeGroupF (kk := 0x55) (i := .stRegs) fun _ => rfl, fun _ => rfl⟩
  | ldRegs => exact ⟨_, readsAs_of_decodeGroupF (kk := 0x65) (i := .ldRegs) fun _ => rfl, fun _ => rfl⟩

/-- A word that a row of the map covers is read as an instruction of that row. -/
theorem decodeWord_of_covers {w : Word} {r : OpRow} (hmem : r ∈ opcodeMap) (hcovers : r.covers w = true) :
    ∃ i, decodeWord w = some i ∧ i.row = r := by
  obtain ⟨j, rfl⟩ := exists_row_of_mem_opcodeMap hmem
  obtain ⟨reading, hreads, hrow⟩ := exists_readsAs_row j
  exact ⟨reading w, (hreads w).mpr (beq_iff_eq.mp hcovers), hrow w⟩

/-- Settles O4: a covering row's words are read as its instructions, and an instruction's own row covers every word
that is read as it. -/
theorem decoderFollowsOpcodeMap : Obligations.DecoderFollowsOpcodeMap := by
  unfold Obligations.DecoderFollowsOpcodeMap
  refine fun w => ⟨⟨fun hwf => ?_, ?_⟩, fun i => row_of_decodeWord⟩
  · obtain ⟨r, hmem, hcovers⟩ := List.any_eq_true.mp hwf
    obtain ⟨i, hdecode, -⟩ := decodeWord_of_covers hmem hcovers
    exact ⟨i, hdecode⟩
  · rintro ⟨i, hdecode⟩
    exact List.any_eq_true.mpr ⟨i.row, row_of_decodeWord hdecode⟩

/-- Settles O5: two rows that cover one word are both the row of the one instruction it is read as. -/
theorem opcodeRowsDisjoint : Obligations.OpcodeRowsDisjoint := by
  unfold Obligations.OpcodeRowsDisjoint
  intro w r q hr hq hrw hqw
  obtain ⟨i, hi, rfl⟩ := decodeWord_of_covers hr hrw
  obtain ⟨j, hj, rfl⟩ := decodeWord_of_covers hq hqw
  rw [Option.some.inj (hi.symm.trans hj)]

end Sys2Proof.Machine
end

section
/-! SUPPORT. What each instruction leaves unchanged: the items, the registers and the bytes it does not write
(spec/10_state.md R24, spec/20_memory.md R37). -/

namespace Sys2Proof.Machine

/-! The frames of the remaining operations -/

theorem State.setScreen_keepsAllBut (s : State) (d : Display) : KeepsAllBut [.fb, .redraw] s (s.setScreen d) := by
  intro p hp
  cases p with
  | fb | redraw => simp at hp
  | mem => exact fun _ => rfl
  | regs => exact fun _ => rfl
  | _ => rfl

theorem State.pushPc_keepsAllBut (s : State) : KeepsAllBut [.stack, .sp] s s.pushPc := by
  intro p hp
  cases p with
  | stack | sp => simp at hp
  | mem => exact fun _ => rfl
  | regs => exact fun _ => rfl
  | _ => rfl

theorem State.dropTop_keepsAllBut (s : State) : KeepsAllBut [.sp] s s.dropTop := by
  intro p hp
  cases p with
  | sp => simp at hp
  | mem => exact fun _ => rfl
  | regs => exact fun _ => rfl
  | _ => rfl

theorem State.drawn_keepsAllBut (s : State) : KeepsAllBut [.draws] s s.drawn := by
  intro p hp
  cases p with
  | draws => simp at hp
  | mem => exact fun _ => rfl
  | regs => exact fun _ => rfl
  | _ => rfl

theorem State.setDelay_keepsAllBut (s : State) (v : Byte) : KeepsAllBut [.dt] s (s.setDelay v) := by
  intro p hp
  cases p with
  | dt => simp at hp
  | mem => exact fun _ => rfl
  | regs => exact fun _ => rfl
  | _ => rfl

theorem State.setSound_keepsAllBut (s : State) (v : Byte) : KeepsAllBut [.st] s (s.setSound v) := by
  intro p hp
  cases p with
  | st => simp at hp
  | mem => exact fun _ => rfl
  | regs => exact fun _ => rfl
  | _ => rfl

theorem State.setRegsFrom_keepsAllBut (s : State) (k : Nat) (bytes : List Byte) :
    KeepsAllBut [.regs] s (s.setRegsFrom k bytes) := by
  rw [s.setRegsFrom_keeps k bytes]
  intro p hp
  cases p with
  | regs => simp at hp
  | mem => exact fun _ => rfl
  | _ => rfl

theorem KeepsAllBut.refl (ps : List Piece) (s : State) : KeepsAllBut ps s s := by
  intro p _
  cases p with
  | mem => exact fun _ => rfl
  | regs => exact fun _ => rfl
  | _ => rfl

/-- An effect that ends with the advance of pc. -/
theorem KeepsAllBut.advance {ps : List Piece} {s t : State} (h : KeepsAllBut ps s t) (k : Word) :
    KeepsAllBut (.pc :: ps) s (t.advance k) :=
  (h.trans (t.advance_keepsAllBut k)).mono (by simp)

/-- An effect that ends with a jump. -/
theorem KeepsAllBut.jump {ps : List Piece} {s t : State} (h : KeepsAllBut ps s t) (a : Word) :
    KeepsAllBut (.pc :: ps) s (t.jump a) :=
  (h.trans (t.jump_keepsAllBut a)).mono (by simp)

/-- Two register writes. -/
theorem State.setReg_setReg_keepsAllBut (s : State) (x y : RegIdx) (v w : Byte) :
    KeepsAllBut [.regs] s ((s.setReg x v).setReg y w) :=
  ((s.setReg_keepsAllBut x v).trans ((s.setReg x v).setReg_keepsAllBut y w)).mono (by simp)

/-- The key wait writes one register and advances pc, or does nothing (spec/44_keypad_timers.md R123). -/
theorem eq_of_exec_ldVxK {s t : State} {x : RegIdx} (h : exec (.ldVxK x) s = .next t) :
    t = s ∨ ∃ v, t = (s.setReg x v).advance 2 := by
  rw [exec_ldVxK] at h
  cases hkey : s.firstKey with
  | none =>
    rw [hkey] at h
    cases h
    exact .inl rfl
  | some k =>
    rw [hkey] at h
    cases h
    exact .inr ⟨_, rfl⟩

/-! The items -/

/-- Settles O19: each meaning is a sequence of the operations above, each of which writes its own items only. -/
theorem instructionsWriteOnlyTheirItems : Obligations.InstructionsWriteOnlyTheirItems := by
  unfold Obligations.InstructionsWriteOnlyTheirItems
  intro i s t h
  cases i with
  | jp | jpV0 =>
    cases h
    exact s.jump_keepsAllBut _
  | seImm | sneImm | seReg | sneReg =>
    cases h
    exact s.advance_keepsAllBut _
  | skp | sknp =>
    obtain ⟨-, rfl⟩ := finish_eq_next.mp h
    exact s.advance_keepsAllBut _
  | ldImm | addImm | ldReg | ldVxDt =>
    cases h
    exact s.setReg_advance_keepsAllBut _ _ 2
  | or | and | xor | addReg | sub | shr | subn | shl =>
    cases h
    exact (s.setReg_setReg_keepsAllBut _ _ _ _).advance 2
  | rnd =>
    cases h
    exact ((s.drawn_keepsAllBut.trans (s.drawn.setReg_keepsAllBut _ _)).mono (by simp)).advance 2
  | ldVxK =>
    obtain rfl | ⟨k, rfl⟩ := eq_of_exec_ldVxK h
    · exact .refl _ _
    · exact s.setReg_advance_keepsAllBut _ _ 2
  | ldI | addI | ldF =>
    cases h
    exact s.setIndex_advance_keepsAllBut _ 2
  | ldDtVx =>
    cases h
    exact (s.setDelay_keepsAllBut _).advance 2
  | ldStVx =>
    cases h
    exact (s.setSound_keepsAllBut _).advance 2
  | cls =>
    cases h
    exact (s.setScreen_keepsAllBut _).advance 2
  | drw =>
    obtain ⟨-, rfl⟩ := finish_eq_next.mp h
    exact (((s.setScreen_keepsAllBut _).trans (State.setReg_keepsAllBut _ vf _)).mono (by simp)).advance 2
  | ret =>
    obtain ⟨-, rfl⟩ := finish_eq_next.mp h
    exact s.dropTop_keepsAllBut.jump _
  | call =>
    obtain ⟨-, rfl⟩ := finish_eq_next.mp h
    exact s.pushPc_keepsAllBut.jump _
  | ldB =>
    obtain ⟨-, rfl⟩ := finish_eq_next.mp h
    exact (s.store_keepsAllBut _ _).advance 2
  | stRegs =>
    obtain ⟨-, rfl⟩ := finish_eq_next.mp h
    exact ((s.store_keepsAllBut _ _).trans (State.setIndex_keepsAllBut _ _)).advance 2
  | ldRegs =>
    obtain ⟨-, rfl⟩ := finish_eq_next.mp h
    exact ((s.setRegsFrom_keepsAllBut _ _).trans (State.setIndex_keepsAllBut _ _)).advance 2

/-- The frame of an instruction, by the table of what it writes. -/
theorem keepsAllBut_of_exec {i : Instr} {s t : State} (h : exec i s = .next t) : KeepsAllBut (writtenBy i) s t :=
  instructionsWriteOnlyTheirItems i s t h

/-! Transfers from and to address I -/

theorem State.indexError_eq_none {s : State} {count : Nat} :
    s.indexError count = none ↔ count = 0 ∨ s.index.toNat + count ≤ Config.memSize :=
  rangeError_eq_none

theorem State.index_add_le_of_indexError {s : State} {count : Nat} (hcount : count ≠ 0)
    (hok : s.indexError count = none) : s.index.toNat + count ≤ Config.memSize :=
  (State.indexError_eq_none.mp hok).resolve_left hcount

theorem rangeCount_le (x : RegIdx) : rangeCount x ≤ 16 := x.isLt

/-- The load of V[0] to V[x] from address I. -/
theorem State.reg_setRegsFrom_bytesAtIndex (s : State) (x r : RegIdx) :
    (s.setRegsFrom 0 (s.bytesAtIndex (rangeCount x))).reg r =
      if r.toNat ≤ x.toNat then s.byteAt (s.index.toNat + r.toNat) else s.reg r := by
  have hfits : 0 + (s.bytesAtIndex (rangeCount x)).length ≤ 16 := by
    simpa using rangeCount_le x
  have hlt : r.toNat < rangeCount x ↔ r.toNat ≤ x.toNat := Nat.lt_succ_iff
  rw [State.reg_setRegsFrom _ _ _ hfits, State.length_bytesAtIndex]
  simp only [Nat.zero_le, true_and, Nat.zero_add, Nat.sub_zero, hlt]
  split
  · exact Memory.getD_readList _ _ _ _ (hlt.mpr ‹_›)
  · rfl

/-! The registers -/

theorem State.reg_setReg_setReg_of_ne (s : State) {x y r : RegIdx} (v w : Byte) (hx : r ≠ x) (hy : r ≠ y) :
    ((s.setReg x v).setReg y w).reg r = s.reg r := by
  rw [State.reg_setReg_of_ne _ _ hy, State.reg_setReg_of_ne _ _ hx]

/-- Settles O20: a register that is neither the destination nor a written flag is read past each register write; the
instructions that are not given the registers keep them all. -/
theorem instructionsWriteOnlyTheirRegisters : Obligations.InstructionsWriteOnlyTheirRegisters := by
  unfold Obligations.InstructionsWriteOnlyTheirRegisters
  intro i s t h r hr
  cases i with
  | ldImm | addImm | ldReg | ldVxDt | rnd =>
    cases h
    exact State.reg_setReg_of_ne _ _ (by simpa [writesReg] using hr)
  | or | and | xor =>
    cases h
    obtain ⟨hx, hvf⟩ : r ≠ _ ∧ r ≠ vf := by simpa [writesReg] using hr
    exact s.reg_setReg_setReg_of_ne _ _ hx hvf
  | addReg | sub | shr | subn | shl =>
    cases h
    obtain ⟨hx, hvf⟩ : r ≠ _ ∧ r ≠ vf := by simpa [writesReg] using hr
    exact s.reg_setReg_setReg_of_ne _ _ hvf hx
  | drw =>
    obtain ⟨-, rfl⟩ := finish_eq_next.mp h
    exact State.reg_setReg_of_ne _ _ (by simpa [writesReg] using hr)
  | ldVxK =>
    obtain rfl | ⟨k, rfl⟩ := eq_of_exec_ldVxK h
    · rfl
    · exact State.reg_setReg_of_ne _ _ (by simpa [writesReg] using hr)
  | ldRegs x =>
    obtain ⟨-, rfl⟩ := finish_eq_next.mp h
    exact (s.reg_setRegsFrom_bytesAtIndex x r).trans (if_neg (by simpa [writesReg] using hr))
  | _ => exact keepsAllBut_of_exec h .regs (by simp [writtenBy]) r

/-! The bytes of memory -/

/-- All that an instruction can do to memory: nothing, or one store inside memory at I. -/
theorem mem_of_exec {i : Instr} {s t : State} (h : exec i s = .next t) :
    (t.mem = s.mem ∧ storedCount i = 0) ∨
      ∃ bytes : List Byte, bytes.length = storedCount i ∧ s.index.toNat + bytes.length ≤ Config.memSize ∧
        t.mem = s.mem.writeList s.index.toNat bytes := by
  cases i with
  | ldB x =>
    obtain ⟨hok, rfl⟩ := finish_eq_next.mp h
    have hbound : s.index.toNat + 3 ≤ Config.memSize := State.index_add_le_of_indexError (by decide) hok
    exact .inr ⟨decimalDigits (s.reg x), rfl, hbound, rfl⟩
  | stRegs x =>
    obtain ⟨hok, rfl⟩ := finish_eq_next.mp h
    have hlen : (s.regRange x).length = rangeCount x := s.length_regRange x
    have hbound : s.index.toNat + rangeCount x ≤ Config.memSize :=
      State.index_add_le_of_indexError (Nat.succ_ne_zero _) hok
    exact .inr ⟨s.regRange x, hlen, hlen.symm ▸ hbound, rfl⟩
  | ldRegs x =>
    obtain ⟨-, rfl⟩ := finish_eq_next.mp h
    rw [s.setRegsFrom_keeps]
    exact .inl ⟨rfl, rfl⟩
  | ldVxK =>
    obtain rfl | ⟨k, rfl⟩ := eq_of_exec_ldVxK h <;> exact .inl ⟨rfl, rfl⟩
  | ret | call | drw | skp | sknp =>
    obtain ⟨-, rfl⟩ := finish_eq_next.mp h
    exact .inl ⟨rfl, rfl⟩
  | _ =>
    cases h
    exact .inl ⟨rfl, rfl⟩

/-- Settles O21: where an instruction stores, it stores that many bytes from address I up. -/
theorem instructionsStoreOnlyTheirBytes : Obligations.InstructionsStoreOnlyTheirBytes := by
  unfold Obligations.InstructionsStoreOnlyTheirBytes
  intro i s t h a ha
  obtain ⟨hmem, -⟩ | ⟨bytes, hlen, -, hmem⟩ := mem_of_exec h
  · exact congrArg (Memory.read · a) hmem
  · have hout : ¬ (s.index.toNat ≤ a ∧ a < s.index.toNat + bytes.length) := hlen ▸ ha
    rw [State.byteAt, hmem, Memory.read_writeList, if_neg hout]
    rfl

end Sys2Proof.Machine
end

section
/-! SUPPORT. The machine's invariant over steps and over the host's moves (spec/10_state.md R15, R16,
spec/41_control_flow.md R81, spec/60_exceptions.md R143, spec/70_reset_and_hazards.md R166). -/

namespace Sys2Proof.Machine

/-! What a completed step can have done -/

/-- A completed step ended, as every step ends, what an unknown word or an instruction left. -/
theorem exists_complete_of_step {s t : State} (h : step s = .next t) :
    s.pc.toNat + 1 < Config.memSize ∧ ∃ u w d, t = u.complete w d ∧
      ((s.nextInstr = none ∧ u = s.advance 2) ∨ ∃ i, s.nextInstr = some i ∧ exec i s = .next u) := by
  obtain ⟨hpc, ⟨hnone, rfl⟩ | ⟨i, u, hsome, hexec, rfl⟩⟩ := step_eq_next.mp h
  · refine ⟨hpc, _, _, _, rfl, .inl ⟨?_, rfl⟩⟩
    refine Option.eq_none_iff_forall_ne_some.mpr fun i hi => ?_
    obtain ⟨-, hdecode⟩ := State.nextInstr_eq_some.mp hi
    simp [hnone] at hdecode
  · exact ⟨hpc, u, _, _, rfl, .inr ⟨i, State.nextInstr_eq_some.mpr ⟨hpc, hsome⟩, hexec⟩⟩

/-- The step of an instruction is its execute phase and the end of a step. -/
theorem step_eq_completeOutcome {s : State} {i : Instr} (hnext : s.nextInstr = some i) :
    step s = completeOutcome (s.wordAt s.pc.toNat) (exec i s) := by
  obtain ⟨hpc, hdecode⟩ := State.nextInstr_eq_some.mp hnext
  have hfetch : s.fetch = .ok (s.wordAt s.pc.toNat) := State.fetch_eq_ok.mpr ⟨hpc, rfl⟩
  simp [step, hfetch, hdecode]

/-! Memory -/

theorem wf_of_exec {i : Instr} {s t : State} (h : exec i s = .next t) (hwf : s.mem.wf = true) : t.mem.wf = true := by
  obtain ⟨hmem, -⟩ | ⟨bytes, -, hbound, hmem⟩ := mem_of_exec h
  · rwa [hmem]
  · rw [hmem]
    exact Memory.wf_writeList hwf _ bytes hbound

/-! The stack -/

/-- Every entry could have been fetched from. -/
def State.StackFetchable (s : State) : Prop := ∀ k : Fin 16, s.stack[k].toNat ≤ 0xFFE

theorem State.stackFetchable_pushPc {s : State} (hstack : s.StackFetchable) (hpc : s.pc.toNat ≤ 0xFFE) :
    s.pushPc.StackFetchable := by
  intro k
  have hk : s.stack[k].toNat ≤ 0xFFE := hstack k
  simp only [State.pushPc_stack, Fin.getElem_fin, Vector.getElem_setIfInBounds]
  split
  · exact hpc
  · exact hk

theorem stackFetchable_of_exec {i : Instr} {s t : State} (h : exec i s = .next t) (hstack : s.StackFetchable)
    (hpc : s.pc.toNat ≤ 0xFFE) : t.StackFetchable := by
  have hkeep (hnot : .stack ∉ writtenBy i) : t.StackFetchable := by
    have hsame : t.stack = s.stack := keepsAllBut_of_exec h .stack hnot
    rwa [State.StackFetchable, hsame]
  cases i with
  | call nnn =>
    obtain ⟨-, rfl⟩ := finish_eq_next.mp h
    exact State.stackFetchable_pushPc hstack hpc
  | _ => exact hkeep (by simp [writtenBy])

theorem State.topOfStack_le {s : State} (hstack : s.StackFetchable) (hsp : s.sp ≠ 0) :
    s.topOfStack.toNat ≤ 0xFFE := by
  obtain ⟨k, -, htop⟩ := State.topOfStack_eq hsp
  exact htop ▸ hstack k

/-! The program counter -/

/-- Past an instruction and a skipped one, pc does not wrap. -/
theorem toNat_add_le_of_fetchable {a k : Word} (ha : a.toNat ≤ 0xFFE) (hk : k.toNat ≤ 4) : (a + k).toNat ≤ 0x10FE := by
  rw [BitVec.toNat_add]
  omega

theorem toNat_skip_le (c : Bool) : (if c then 4 else 2 : Word).toNat ≤ 4 := by
  cases c <;> decide

theorem pc_le_of_exec {i : Instr} {s t : State} (h : exec i s = .next t) (hstack : s.StackFetchable)
    (hpc : s.pc.toNat ≤ 0xFFE) : t.pc.toNat ≤ 0x10FE := by
  have hnext : (s.pc + 2).toNat ≤ 0x10FE := toNat_add_le_of_fetchable hpc (by decide)
  cases i with
  | jp nnn =>
    cases h
    rw [State.jump_pc, toNat_zextAddr]
    omega
  | call nnn =>
    obtain ⟨-, rfl⟩ := finish_eq_next.mp h
    rw [State.jump_pc, toNat_zextAddr]
    omega
  | jpV0 nnn =>
    cases h
    rw [State.jump_pc, toNat_zextAddr_add_zextByte]
    omega
  | ret =>
    obtain ⟨hsp, rfl⟩ := finish_eq_next.mp h
    have hsp : s.sp ≠ 0 := fun h0 => by simp [h0] at hsp
    exact toNat_add_le_of_fetchable (State.topOfStack_le hstack hsp) (by decide)
  | seImm | sneImm | seReg | sneReg =>
    cases h
    exact toNat_add_le_of_fetchable hpc (toNat_skip_le _)
  | skp | sknp =>
    obtain ⟨-, rfl⟩ := finish_eq_next.mp h
    exact toNat_add_le_of_fetchable hpc (toNat_skip_le _)
  | ldVxK =>
    obtain rfl | ⟨v, rfl⟩ := eq_of_exec_ldVxK h
    · omega
    · exact hnext
  | ldRegs x =>
    obtain ⟨-, rfl⟩ := finish_eq_next.mp h
    rw [s.setRegsFrom_keeps]
    exact hnext
  | drw | ldB | stRegs =>
    obtain ⟨-, rfl⟩ := finish_eq_next.mp h
    exact hnext
  | _ =>
    cases h
    exact hnext

/-! The invariant -/

/-- The end of a step meets the clause of the invariant on the beep, whatever went before. -/
theorem State.st_complete_of_beep {t : State} {w : Word} {d : Option Word}
    (hbeep : (t.complete w d).out.beep = true) : (t.complete w d).st = 0 := by
  have hst : t.st = 1 := (State.complete_beep ..).mp hbeep
  refine BitVec.eq_of_toNat_eq ?_
  rw [State.complete_st_toNat, hst]
  rfl

theorem State.inv_complete {t : State} (hwf : t.mem.wf = true) (hstack : t.StackFetchable) (hpc : t.pc.toNat ≤ 0x10FE)
    (w : Word) (d : Option Word) : (t.complete w d).Inv :=
  ⟨hwf, hstack, hpc, State.st_complete_of_beep⟩

/-- Settles O23: the fetch bounds pc by 0xFFE, which bounds what a call pushes, so what a return pops, and every other
next pc; stores stay inside memory, and the tick leaves ST at 0 when it beeps. -/
theorem stepKeepsInvariant : Obligations.StepKeepsInvariant := by
  unfold Obligations.StepKeepsInvariant
  rintro s t ⟨hwf, hstack, -, -⟩ hstep
  obtain ⟨hpc, u, w, d, rfl, hu⟩ := exists_complete_of_step hstep
  have hmem : Config.memSize = 4096 := rfl
  have hpc : s.pc.toNat ≤ 0xFFE := by omega
  obtain ⟨-, rfl⟩ | ⟨i, -, hexec⟩ := hu
  · exact State.inv_complete (t := s.advance 2) hwf hstack (toNat_add_le_of_fetchable hpc (by decide)) w d
  · exact State.inv_complete (wf_of_exec hexec hwf) (stackFetchable_of_exec hexec hstack hpc)
      (pc_le_of_exec hexec hstack hpc) w d

/-- Settles O24: the reset memory lists nothing, every entry is 0, pc is 0x200, and there is no beep. -/
theorem resetMeetsInvariant : Obligations.ResetMeetsInvariant := by
  unfold Obligations.ResetMeetsInvariant
  refine ⟨Memory.wf_nil, fun k => ?_, by decide, nofun⟩
  simp [State.reset]

/-! The host's moves -/

theorem State.loadProgram_eq_ok {s t : State} {bytes : List Byte} (h : s.loadProgram bytes = .ok t) :
    bytes.length ≤ Config.maxProgram ∧ t = s.store Config.programBase bytes := by
  obtain hle | hlt := le_or_gt bytes.length Config.maxProgram
  · rw [s.loadProgram_of_le hle] at h
    cases h
    exact ⟨hle, rfl⟩
  · rw [s.loadProgram_of_lt hlt] at h
    cases h

theorem State.setKey_of_lt (s : State) {index : Nat} (pressed : Bool) (h : index < 16) :
    s.setKey index pressed = some { s with keys := s.keys.setIfInBounds index pressed } :=
  if_pos h

theorem State.setKey_of_le (s : State) {index : Nat} (pressed : Bool) (h : 16 ≤ index) :
    s.setKey index pressed = none :=
  if_neg (Nat.not_lt.mpr h)

theorem State.setKey_eq_some {s t : State} {index : Nat} {pressed : Bool} (h : s.setKey index pressed = some t) :
    t = { s with keys := s.keys.setIfInBounds index pressed } := by
  obtain hlt | hle := lt_or_ge index 16
  · rw [s.setKey_of_lt pressed hlt] at h
    exact (Option.some.inj h).symm
  · rw [s.setKey_of_le pressed hle] at h
    cases h

theorem Move.inv {s t : State} (m : Move s t) (hinv : s.Inv) : t.Inv := by
  cases m with
  | step h => exact stepKeepsInvariant s t hinv h
  | setKey h =>
    rw [State.setKey_eq_some h]
    exact hinv
  | clearRedraw => exact hinv
  | load h =>
    obtain ⟨hfits, rfl⟩ := State.loadProgram_eq_ok h
    obtain ⟨hwf, hrest⟩ := hinv
    have hbound : Config.programBase + Config.maxProgram ≤ Config.memSize := by decide
    exact ⟨Memory.wf_writeList hwf _ _ (by omega), hrest⟩
  | reset => exact resetMeetsInvariant

/-- Settles O25: by the move, and then by induction on the moves from reset. -/
theorem movesKeepInvariant : Obligations.MovesKeepInvariant := by
  unfold Obligations.MovesKeepInvariant
  refine ⟨fun s t hinv m => m.inv hinv, fun s hreach => ?_⟩
  induction hreach with
  | start => exact resetMeetsInvariant
  | move _ m ih => exact m.inv ih

end Sys2Proof.Machine
end

section
/-! SUPPORT. The errors of the execute phase, what they depend on, and what a step reports
(spec/60_exceptions.md R130 to R139, spec/00_scope.md R5). -/

namespace Sys2Proof.Machine

/-! The tested errors in the terms of the spec -/

theorem State.indexError_eq_some {s : State} {count : Nat} {e : Fault} :
    s.indexError count = some e ↔
      0 < count ∧ 4096 < s.index.toNat + count ∧ e = .memoryOutOfBounds (max s.index.toNat 4096) :=
  rangeError_eq_some

theorem executeError_ret {s : State} {e : Fault} :
    executeError s .ret = some e ↔ s.sp = 0 ∧ e = .stackUnderflow s.pc := by
  simp [executeError, eq_comm]

theorem executeError_call {s : State} {nnn : Addr12} {e : Fault} :
    executeError s (.call nnn) = some e ↔ s.sp = 16 ∧ e = .stackOverflow s.pc := by
  simp [executeError, eq_comm]

theorem executeError_ldB {s : State} {x : RegIdx} {e : Fault} :
    executeError s (.ldB x) = some e ↔
      4096 ≤ s.index.toNat + 2 ∧ e = .memoryOutOfBounds (max s.index.toNat 4096) := by
  refine State.indexError_eq_some.trans ?_
  rw [← and_assoc]
  exact and_congr_left fun _ => by omega

theorem indexError_rangeCount {s : State} {x : RegIdx} {e : Fault} :
    s.indexError (rangeCount x) = some e ↔
      4096 ≤ s.index.toNat + x.toNat ∧ e = .memoryOutOfBounds (max s.index.toNat 4096) := by
  refine State.indexError_eq_some.trans ?_
  rw [← and_assoc, rangeCount]
  exact and_congr_left fun _ => by omega

theorem executeError_drw {s : State} {x y : RegIdx} {n : Nibble} {e : Fault} :
    executeError s (.drw x y n) = some e ↔
      (1 ≤ n.toNat ∧ 4096 ≤ s.index.toNat + (n.toNat - 1) ∧ e = .memoryOutOfBounds (max s.index.toNat 4096)) ∨
      (1 ≤ n.toNat ∧ s.index.toNat + (n.toNat - 1) < 4096 ∧
        (63 < (s.reg x).toNat + 7 ∨ 31 < (s.reg y).toNat + n.toNat - 1) ∧
        e = .drawOutOfBounds (s.reg x) (s.reg y) n) := by
  have hmem : Config.memSize = 4096 := rfl
  refine drawError_eq_some.trans (or_congr ?_ ?_)
  · refine State.indexError_eq_some.trans ?_
    rw [← and_assoc, ← and_assoc]
    exact and_congr_left fun _ => by omega
  · rw [State.indexError_eq_none, rectError_eq_some, hmem]
    simp only [← and_assoc]
    exact and_congr_left fun _ => by omega

theorem exec_ne_refused (i : Instr) (s : State) (r : Refusal) : exec i s ≠ .refused r := by
  cases i with
  | ret | call | drw | skp | sknp | ldB | stRegs | ldRegs => exact finish_ne_refused
  | ldVxK =>
    rw [exec_ldVxK]
    exact nofun
  | _ => exact nofun

/-- Settles O12: the execute phase fails exactly with the error its instruction tests for, instruction by instruction. -/
theorem executeErrorsExactly : Obligations.ExecuteErrorsExactly := by
  unfold Obligations.ExecuteErrorsExactly
  refine ⟨fun i s e => exec_eq_fault.trans ?_, exec_ne_refused⟩
  cases i with
  | ret => simp [executeError_ret]
  | call => simp [executeError_call]
  | skp | sknp => simp [executeError, keyError_eq_some]
  | ldB => simp [executeError_ldB]
  | stRegs | ldRegs => simp [executeError, indexError_rangeCount]
  | drw => simp [executeError_drw]
  | _ => simp [executeError]

/-! What an error depends on -/

theorem executeError_keys_draws (s : State) (keys : Vector Bool 16) (draws : Nat) (i : Instr) :
    executeError { s with keys := keys, draws := draws } i = executeError s i := by
  cases i <;> rfl

/-- Settles O13: the fetch reads pc and memory, and no tested error reads the keys or the draw counter. -/
theorem errorsIgnoreKeysAndDraws : Obligations.ErrorsIgnoreKeysAndDraws := by
  unfold Obligations.ErrorsIgnoreKeysAndDraws
  intro s keys draws e h
  rw [step_eq_fault] at h ⊢
  refine h.imp_right fun ⟨hpc, i, hdecode, hexec⟩ => ⟨hpc, i, hdecode, exec_eq_fault.mpr ?_⟩
  rw [executeError_keys_draws]
  exact exec_eq_fault.mp hexec

/-! The output record -/

theorem stepOutput_of_fault {s : State} {e : Fault} (h : step s = .fault e) :
    stepOutput s = { beep := false, diagnostic := none, error := some e } := by
  simp [stepOutput, h]

theorem stateAfter_of_fault {s : State} {e : Fault} (h : step s = .fault e) : stateAfter s = s := by
  simp [stateAfter, h]

theorem stepOutput_of_next {s t : State} (h : step s = .next t) :
    stepOutput s = { beep := t.out.beep, diagnostic := t.out.diagnostic, error := none } := by
  simp [stepOutput, h]

theorem stateAfter_of_next {s t : State} (h : step s = .next t) : stateAfter s = t := by
  simp [stateAfter, h]

/-- Settles O14: by the outcome of the step; after a hard error the same state steps again. -/
theorem outputRecordOfStep : Obligations.OutputRecordOfStep := by
  unfold Obligations.OutputRecordOfStep
  refine ⟨fun s e h => ⟨stepOutput_of_fault h, stateAfter_of_fault h, ?_⟩,
    fun s t h => ⟨stepOutput_of_next h, stateAfter_of_next h⟩⟩
  rw [stateAfter_of_fault h]
  exact h

/-! The step of a decoded instruction, and the end of a step -/

/-- Settles O8: the step is the end of a step after the execute phase, whichever way that ends. -/
theorem stepRunsDecodedInstruction : Obligations.StepRunsDecodedInstruction := by
  unfold Obligations.StepRunsDecodedInstruction
  intro s i hpc hdecode
  have hstep := step_eq_completeOutcome (State.nextInstr_eq_some.mpr ⟨hpc, hdecode⟩)
  exact ⟨fun t hexec => by rw [hstep, hexec, completeOutcome_next],
    fun e hexec => by rw [hstep, hexec, completeOutcome_fault]⟩

/-- Settles O9: the end of a step, field by field. -/
theorem stepEndsWithTimerTick : Obligations.StepEndsWithTimerTick := by
  unfold Obligations.StepEndsWithTimerTick
  intro s w d
  exact ⟨State.complete_dt_toNat .., State.complete_st_toNat .., State.complete_beep .., State.complete_diagnostic ..,
    State.complete_cur .., s.complete_keepsAllBut w d⟩

end Sys2Proof.Machine
end

section
/-! SUPPORT. The timers, the keys and the screen over whole steps, and the self-jump (spec/60_exceptions.md R142 to R144,
spec/10_state.md R19, R21, spec/70_reset_and_hazards.md R171). -/

namespace Sys2Proof.Machine

/-! What a step leaves before its tick -/

/-- An item that the next instruction is not given is the same when the step's tick comes. -/
theorem exists_complete_of_step_unchanged {s t : State} {p : Piece} (hstep : step s = .next t) (hpc : p ≠ .pc)
    (hwrite : ∀ i, s.nextInstr = some i → p ∉ writtenBy i) : ∃ u w d, t = u.complete w d ∧ Unchanged p s u := by
  obtain ⟨-, u, w, d, rfl, ⟨-, rfl⟩ | ⟨i, hi, hexec⟩⟩ := exists_complete_of_step hstep
  · exact ⟨_, w, d, rfl, s.advance_keepsAllBut 2 p (by simpa using hpc)⟩
  · exact ⟨u, w, d, rfl, keepsAllBut_of_exec hexec p (hwrite i hi)⟩

theorem dt_notMem_writtenBy {i : Instr} (h : ∀ x, i ≠ .ldDtVx x) : .dt ∉ writtenBy i := by
  cases i with
  | ldDtVx x => exact absurd rfl (h x)
  | _ => simp [writtenBy]

theorem st_notMem_writtenBy {i : Instr} (h : ∀ x, i ≠ .ldStVx x) : .st ∉ writtenBy i := by
  cases i with
  | ldStVx x => exact absurd rfl (h x)
  | _ => simp [writtenBy]

theorem keys_notMem_writtenBy (i : Instr) : .keys ∉ writtenBy i := by
  cases i <;> simp [writtenBy]

/-! Timers -/

theorem dt_of_step {s t : State} (hstep : step s = .next t) (hnext : ∀ x, s.nextInstr ≠ some (.ldDtVx x)) :
    t.dt.toNat = s.dt.toNat - 1 := by
  have hwrite (i : Instr) (hi : s.nextInstr = some i) : .dt ∉ writtenBy i :=
    dt_notMem_writtenBy fun x hx => hnext x (hx ▸ hi)
  obtain ⟨u, w, d, rfl, hdt⟩ := exists_complete_of_step_unchanged hstep (by decide) hwrite
  have hdt : u.dt = s.dt := hdt
  rw [State.complete_dt_toNat, hdt]

theorem st_of_step {s t : State} (hstep : step s = .next t) (hnext : ∀ x, s.nextInstr ≠ some (.ldStVx x)) :
    t.st.toNat = s.st.toNat - 1 ∧ (t.out.beep = true ↔ s.st = 1) := by
  have hwrite (i : Instr) (hi : s.nextInstr = some i) : .st ∉ writtenBy i :=
    st_notMem_writtenBy fun x hx => hnext x (hx ▸ hi)
  obtain ⟨u, w, d, rfl, hst⟩ := exists_complete_of_step_unchanged hstep (by decide) hwrite
  have hst : u.st = s.st := hst
  rw [State.complete_st_toNat, State.complete_beep, hst]
  exact ⟨rfl, Iff.rfl⟩

/-- Settles O15: what the step runs keeps a timer that it does not load, and the tick is the end of the step. -/
theorem everyStepTicksTimers : Obligations.EveryStepTicksTimers := by
  unfold Obligations.EveryStepTicksTimers
  exact fun s t hstep => ⟨dt_of_step hstep, st_of_step hstep⟩

/-- Settles O16: the load, and then the end of the step. -/
theorem loadedTimerTicksInSameStep : Obligations.LoadedTimerTicksInSameStep := by
  unfold Obligations.LoadedTimerTicksInSameStep
  intro s x
  exact ⟨fun hnext => ⟨_, step_of_nextInstr hnext (exec_ldDtVx s x), State.complete_dt_toNat ..⟩,
    fun hnext => ⟨_, step_of_nextInstr hnext (exec_ldStVx s x), State.complete_st_toNat .., State.complete_beep ..⟩⟩

/-- A count that starts at `v - 1` and goes down by one with a floor of 0. -/
theorem countdown {f : Nat → Nat} {v n : Nat} (hone : f 1 = v - 1)
    (hsucc : ∀ k, 1 ≤ k → k < n → f (k + 1) = f k - 1) : ∀ k, 1 ≤ k → k ≤ n → f k = v - k := by
  intro k hk
  induction k, hk using Nat.le_induction with
  | base => exact fun _ => hone
  | succ k hk ih =>
    intro hkn
    rw [hsucc k hk hkn, ih (by omega)]
    omega

theorem byte_eq_one_iff {b : Byte} : b = 1 ↔ b.toNat = 1 := BitVec.toNat_inj.symm

/-- Settles O17: after step `k` the timer is `v - k`, so it is 1 before step `v` and before no other after the first. -/
theorem soundTimerBeepsAfterItsSteps : Obligations.SoundTimerBeepsAfterItsSteps := by
  unfold Obligations.SoundTimerBeepsAfterItsSteps
  intro tr x v hsteps hload hv hpos hnoload
  obtain ⟨t, hstep, hst, hbeep⟩ := (loadedTimerTicksInSameStep (tr 0) x).2 hload
  obtain rfl : tr 1 = t := Host.Outcome.next.inj ((hsteps 0 hpos).symm.trans hstep)
  have hone : (tr 1).st.toNat = v - 1 := hv ▸ hst
  have htick (k : Nat) (hk : 1 ≤ k) (hkv : k < v) := st_of_step (hsteps k hkv) (hnoload k hk hkv)
  have hcount : ∀ k, 1 ≤ k → k ≤ v → (tr k).st.toNat = v - k :=
    countdown hone fun k hk hkv => (htick k hk hkv).1
  have hbeeps (k : Nat) (hk : 1 ≤ k) (hkv : k ≤ v) : (tr k).out.beep = true ↔ k = v := by
    obtain rfl | ⟨j, hj, rfl⟩ : k = 1 ∨ ∃ j, 1 ≤ j ∧ k = j + 1 := by
      obtain rfl | hlt := hk.eq_or_lt
      · exact .inl rfl
      · exact .inr ⟨k - 1, by omega, by omega⟩
    · rw [hbeep, byte_eq_one_iff, hv]
      exact eq_comm
    · rw [(htick j hj hkv).2, byte_eq_one_iff, hcount j hj (by omega)]
      omega
  refine ⟨BitVec.eq_of_toNat_eq ?_, (hbeeps v hpos le_rfl).mpr rfl, fun k hk hkv => ?_⟩
  · rw [hcount v hpos le_rfl, Nat.sub_self]
    rfl
  · exact Bool.eq_false_iff.mpr fun hb => hkv.ne ((hbeeps k hk hkv.le).mp hb)

/-- Settles O18: after step `k` the timer is `v - k`, and step `j` reads it before its own tick. -/
theorem delayReadAfterSteps : Obligations.DelayReadAfterSteps := by
  unfold Obligations.DelayReadAfterSteps
  intro tr x y j hj hsteps hload hnoload hread
  obtain ⟨t, hstep, hdt⟩ := (loadedTimerTicksInSameStep (tr 0) x).1 hload
  obtain rfl : tr 1 = t := Host.Outcome.next.inj ((hsteps 0 (Nat.zero_le j)).symm.trans hstep)
  have hcount : ∀ k, 1 ≤ k → k ≤ j → (tr k).dt.toNat = ((tr 0).reg x).toNat - k :=
    countdown hdt fun k hk hkj => dt_of_step (hsteps k hkj.le) (hnoload k hk hkj)
  obtain ⟨u, hlast, hu⟩ := (ldVxDtReadsDelay.1 (tr j) y).2 hread
  obtain rfl : tr (j + 1) = u := Host.Outcome.next.inj ((hsteps j le_rfl).symm.trans hlast)
  rw [hu, hcount j hj le_rfl]

/-! Keys and frames -/

theorem keys_of_step {s t : State} (hstep : step s = .next t) : t.keys = s.keys := by
  obtain ⟨u, w, d, rfl, hkeys⟩ :=
    exists_complete_of_step_unchanged hstep (by decide : Piece.keys ≠ .pc) fun i _ => keys_notMem_writtenBy i
  exact hkeys

/-- An instruction that is given the screen requests a redraw; any other keeps the screen and the request. -/
theorem redraw_or_unchanged_of_exec {i : Instr} {s t : State} (h : exec i s = .next t) :
    t.redraw = true ∨ (t.fb = s.fb ∧ t.redraw = s.redraw) := by
  cases i with
  | cls =>
    cases h
    exact .inl rfl
  | drw =>
    obtain ⟨-, rfl⟩ := finish_eq_next.mp h
    exact .inl rfl
  | _ =>
    exact .inr ⟨keepsAllBut_of_exec h .fb (by simp [writtenBy]), keepsAllBut_of_exec h .redraw (by simp [writtenBy])⟩

theorem redraw_or_unchanged_of_step {s t : State} (hstep : step s = .next t) :
    t.redraw = true ∨ (t.fb = s.fb ∧ t.redraw = s.redraw) := by
  obtain ⟨-, u, w, d, rfl, ⟨-, rfl⟩ | ⟨i, -, hexec⟩⟩ := exists_complete_of_step hstep
  · exact .inr ⟨rfl, rfl⟩
  · exact (redraw_or_unchanged_of_exec hexec :)

/-- Settles O22: no instruction is given the keys, and one that is given the screen requests a redraw. -/
theorem stepsKeepKeysAndAnnounceFrames : Obligations.StepsKeepKeysAndAnnounceFrames := by
  unfold Obligations.StepsKeepKeysAndAnnounceFrames
  intro s t hstep
  refine ⟨keys_of_step hstep, ?_⟩
  obtain hredraw | ⟨hfb, hredraw⟩ := redraw_or_unchanged_of_step hstep
  · exact ⟨fun _ => hredraw, fun _ => hredraw⟩
  · exact ⟨fun hs => hredraw.trans hs, fun hne => absurd hfb hne⟩

/-! The self-jump -/

theorem encode_jp (nnn : Addr12) : encode (.jp nnn) = 0x1000 ||| zextAddr nnn := by
  rw [zextAddr, ← BitVec.setWidth'_eq (by decide)]
  exact BitVec.append_def _ _

/-- A word of group 1 is a jump, so a self-jump's word is the jump to where it stands. -/
theorem State.AtSelfJump.nextInstr_eq {s : State} (h : s.AtSelfJump) :
    ∃ nnn : Addr12, s.nextInstr = some (.jp nnn) ∧ zextAddr nnn = s.pc := by
  obtain ⟨hpc, hword⟩ := h
  have hmem : Config.memSize = 4096 := rfl
  obtain ⟨nnn, htarget⟩ : ∃ nnn : Addr12, zextAddr nnn = s.pc := by
    refine ⟨s.pc.setWidth 12, BitVec.eq_of_toNat_eq ?_⟩
    rw [toNat_zextAddr, BitVec.toNat_setWidth]
    omega
  refine ⟨nnn, State.nextInstr_eq_some.mpr ⟨hpc, ?_⟩, htarget⟩
  rw [hword, ← htarget, ← encode_jp]
  exact decodeEncodeRoundTrip (.jp nnn)

theorem State.jump_pc_self (s : State) : s.jump s.pc = s := rfl

/-- Settles O30: the step of a self-jump is the jump to pc itself, which changes nothing, and the end of a step. -/
theorem selfJumpStays : Obligations.SelfJumpStays := by
  unfold Obligations.SelfJumpStays
  intro s hself
  obtain ⟨nnn, hnext, htarget⟩ := hself.nextInstr_eq
  have hstep := step_jp hnext
  rw [htarget, s.jump_pc_self] at hstep
  exact ⟨_, hstep, State.complete_pc .., hself, (s.complete_keepsAllBut _ _).mono (by decide)⟩

end Sys2Proof.Machine
end

section
/-! SUPPORT. Calls, returns and the register skips (spec/41_control_flow.md R81, R83, R86, R87). -/

namespace Sys2Proof.Machine

/-! Return and call -/

theorem exec_ret_of_sp_ne {s : State} (h : s.sp ≠ 0) : exec .ret s = .next (s.dropTop.jump (s.topOfStack + 2)) :=
  finish_eq_next.mpr ⟨if_neg h, rfl⟩

theorem exec_call_of_sp_ne {s : State} (nnn : Addr12) (h : s.sp ≠ 16) :
    exec (.call nnn) s = .next (s.pushPc.jump (zextAddr nnn)) :=
  finish_eq_next.mpr ⟨if_neg h, rfl⟩

theorem call_eq_next {s t : State} {nnn : Addr12} (h : exec (.call nnn) s = .next t) :
    s.sp ≠ 16 ∧ t = s.pushPc.jump (zextAddr nnn) := by
  obtain ⟨hnone, rfl⟩ := finish_eq_next.mp h
  exact ⟨fun hfull => by simp [hfull] at hnone, rfl⟩

theorem State.sp_ne_of_val {s : State} {m : Fin 17} {n : Nat} (hval : s.sp.val = n) (hne : n ≠ m.val) : s.sp ≠ m :=
  fun h => hne (hval ▸ congrArg Fin.val h)

theorem State.topOfStack_of_sp {s : State} {k : Fin 16} (hsp : s.sp.val = k.val + 1) : s.topOfStack = s.stack[k] := by
  obtain ⟨j, hj, htop⟩ := State.topOfStack_eq (State.sp_ne_of_val (m := 0) hsp (Nat.succ_ne_zero _))
  obtain rfl : j = k := Fin.ext (by omega)
  exact htop

/-- Settles O33: a return is the drop of the top and the jump past it, or the error tested first. -/
theorem retReturns : Obligations.RetReturns := by
  unfold Obligations.RetReturns
  refine fun s => ⟨fun k hk => ?_, fun hempty => finish_eq_fault.mpr (if_pos hempty)⟩
  have hsp : s.sp ≠ 0 := State.sp_ne_of_val hk (Nat.succ_ne_zero _)
  have hexec := exec_ret_of_sp_ne hsp
  refine ⟨_, hexec, ?_, ?_, keepsAllBut_of_exec hexec⟩
  · exact (State.dropTop_sp_val hsp).trans (by omega)
  · rw [State.jump_pc, State.topOfStack_of_sp hk]

/-- Settles O35: a call is the push of pc and the jump, or the error tested first. -/
theorem callPushesAndJumps : Obligations.CallPushesAndJumps := by
  unfold Obligations.CallPushesAndJumps
  refine fun s nnn => ⟨fun k hk => ?_, fun hfull => finish_eq_fault.mpr (if_pos hfull)⟩
  have hsp : s.sp ≠ 16 := State.sp_ne_of_val hk k.isLt.ne
  have hexec := exec_call_of_sp_ne nnn hsp
  refine ⟨_, hexec, ?_, fun j hj => ?_, ?_, toNat_zextAddr nnn, keepsAllBut_of_exec hexec⟩
  · simp [hk]
  · have hne : k.val ≠ j.val := fun h => hj (Fin.ext h.symm)
    simp [hk, hne]
  · exact (State.pushPc_sp_val hsp).trans (congrArg (· + 1) hk)

/-- Settles O26: what the call pushed is on top of the stack of the return, one below its stack pointer. -/
theorem returnUndoesCall : Obligations.ReturnUndoesCall := by
  unfold Obligations.ReturnUndoesCall
  intro s t u nnn hcall hstack hsp
  obtain ⟨hfull, rfl⟩ := call_eq_next hcall
  have hsp : u.sp = s.pushPc.sp := hsp
  have hstack : u.stack = s.pushPc.stack := hstack
  have htop : u.topOfStack = s.pc := by
    rw [← State.topOfStack_pushPc hfull, State.topOfStack, State.topOfStack, hstack, hsp]
  have hne : u.sp ≠ 0 := State.sp_ne_of_val (hsp ▸ State.pushPc_sp_val hfull) (Nat.succ_ne_zero _)
  refine ⟨_, exec_ret_of_sp_ne hne, ?_, ?_⟩
  · rw [State.jump_pc, htop]
  · rw [State.jump_sp, State.dropTop_sp, hsp, State.pushPc_sp, add_sub_cancel_right]

/-! Skips -/

/-- Settles O37: both skips advance pc by the test for equality or for inequality; the decoder tests the last nibble of
groups 5 and 9. -/
theorem registerSkips : Obligations.RegisterSkips := by
  unfold Obligations.RegisterSkips
  refine ⟨fun s x y => ⟨⟨_, exec_seReg s x y, ?_, ?_, s.advance_keepsAllBut _⟩,
    ⟨_, exec_sneReg s x y, ?_, ?_, s.advance_keepsAllBut _⟩⟩, ?_⟩
  · simp
  · rintro rfl
    simp
  · by_cases heq : s.reg x = s.reg y <;> simp [heq]
  · rintro rfl
    simp
  · rintro w (hop | hop) hn <;> simpa [decodeWord, hop] using hn

end Sys2Proof.Machine
end

section
/-! SUPPORT. The instructions of group 8 that write the flag register, and the random byte (spec/42_alu.md R93 to R103). -/

namespace Sys2Proof.Machine

/-! The two orders of result and flag -/

/-- What an instruction leaves that writes its result and then clears the flag. -/
theorem next_of_exec_result_flag {s : State} {i : Instr} {x : RegIdx} {v f : Byte}
    (hexec : exec i s = .next (((s.setReg x v).setReg vf f).advance 2)) :
    ∃ t, exec i s = .next t ∧ (x ≠ vf → t.reg x = v) ∧ t.reg vf = f ∧ (∀ r, r ≠ x → r ≠ vf → t.reg r = s.reg r) ∧
      t.pc = s.pc + 2 ∧ KeepsAllBut [.pc, .regs] s t := by
  refine ⟨_, hexec, fun hx => ?_, State.reg_setReg_same .., fun r hx hvf => s.reg_setReg_setReg_of_ne _ _ hx hvf, rfl,
    (s.setReg_setReg_keepsAllBut _ _ _ _).advance 2⟩
  exact (State.reg_setReg_of_ne _ _ hx).trans (s.reg_setReg_same x v)

/-- What an instruction leaves that writes the flag and then its result. -/
theorem next_of_exec_flag_result {s : State} {i : Instr} {x : RegIdx} {v f : Byte}
    (hexec : exec i s = .next (((s.setReg vf f).setReg x v).advance 2)) :
    ∃ t, exec i s = .next t ∧ t.reg x = v ∧ (x ≠ vf → t.reg vf = f) ∧ (∀ r, r ≠ x → r ≠ vf → t.reg r = s.reg r) ∧
      t.pc = s.pc + 2 ∧ KeepsAllBut [.pc, .regs] s t := by
  refine ⟨_, hexec, State.reg_setReg_same .., fun hx => ?_, fun r hx hvf => s.reg_setReg_setReg_of_ne _ _ hvf hx, rfl,
    (s.setReg_setReg_keepsAllBut _ _ _ _).advance 2⟩
  exact (State.reg_setReg_of_ne _ _ hx.symm).trans (s.reg_setReg_same vf f)

/-! The flags and results as numbers -/

theorem carryFlag_eq (a b : Byte) : carryFlag a b = if 255 < a.toNat + b.toNat then 1 else 0 :=
  if_congr decide_eq_true_iff rfl rfl

theorem noBorrowFlag_eq (a b : Byte) : noBorrowFlag a b = if a.toNat < b.toNat then 0 else 1 := by
  unfold noBorrowFlag flagOf
  by_cases h : a.toNat < b.toNat <;> simp [h]

theorem toNat_shiftedOutLow (a : Byte) : (shiftedOutLow a).toNat = a.toNat % 2 := by
  rw [shiftedOutLow, BitVec.toNat_and]
  exact Nat.and_one_is_mod _

theorem toNat_shiftedOutHigh (a : Byte) : (shiftedOutHigh a).toNat = a.toNat / 128 := by
  have hbit : a &&& 0x80 = if a.getLsbD 7 then 0x80 else 0 := BitVec.and_twoPow a 7
  have hmsb : a.getLsbD 7 = decide (128 ≤ a.toNat) := BitVec.msb_eq_decide a
  rw [shiftedOutHigh, hbit, hmsb]
  have ha : a.toNat < 256 := a.isLt
  by_cases h : 128 ≤ a.toNat
  · simp [h, flagOf]
    omega
  · simp [h, flagOf]
    omega

theorem toNat_byte_sub (a b : Byte) : (a - b).toNat = (a.toNat + 256 - b.toNat) % 256 := by
  bv_omega

theorem toNat_byte_shr (a : Byte) : (a >>> 1).toNat = a.toNat / 2 := by
  rw [BitVec.toNat_ushiftRight, Nat.shiftRight_one]

theorem toNat_byte_shl (a : Byte) : (a <<< 1).toNat = a.toNat * 2 % 256 := by
  rw [BitVec.toNat_shiftLeft, Nat.shiftLeft_eq]

/-- Settles O41: the three are the write of their result and then of the flag. -/
theorem logicWritesResultThenClearsFlag : Obligations.LogicWritesResultThenClearsFlag := by
  unfold Obligations.LogicWritesResultThenClearsFlag
  rintro s x y i v (⟨rfl, rfl⟩ | ⟨rfl, rfl⟩ | ⟨rfl, rfl⟩)
  · exact next_of_exec_result_flag (exec_or s x y)
  · exact next_of_exec_result_flag (exec_and s x y)
  · exact next_of_exec_result_flag (exec_xor s x y)

/-- Settles O42: the flag and then the sum, both of the old values. -/
theorem addRegAddsWithCarry : Obligations.AddRegAddsWithCarry := by
  unfold Obligations.AddRegAddsWithCarry
  intro s x y
  obtain ⟨t, hexec, hx, hflag, hrest⟩ := next_of_exec_flag_result (exec_addReg s x y)
  rw [carryFlag_eq] at hflag
  exact ⟨t, hexec, (congrArg BitVec.toNat hx).trans (BitVec.toNat_ofNat _ 8), hflag, hrest⟩

/-- Settles O43: the flag, and then the difference of the registers as the flag's write left them. -/
theorem subSubtractsAfterFlag : Obligations.SubSubtractsAfterFlag := by
  unfold Obligations.SubSubtractsAfterFlag
  intro s x y f hf
  have hf : noBorrowFlag (s.reg x) (s.reg y) = f := (noBorrowFlag_eq ..).trans hf.symm
  obtain ⟨t, hexec, hx, hrest⟩ := next_of_exec_flag_result (exec_sub s x y)
  rw [hf] at hx hrest
  refine ⟨t, hexec, ?_, hrest⟩
  rw [hx, toNat_byte_sub, State.reg_setReg, State.reg_setReg]

/-- Settles O44: the flag, and then half of V[y] as the flag's write left it. -/
theorem shrShiftsSourceRight : Obligations.ShrShiftsSourceRight := by
  unfold Obligations.ShrShiftsSourceRight
  intro s x y f hf
  have hf : shiftedOutLow (s.reg y) = f := BitVec.eq_of_toNat_eq ((toNat_shiftedOutLow _).trans hf.symm)
  obtain ⟨t, hexec, hx, hrest⟩ := next_of_exec_flag_result (exec_shr s x y)
  rw [hf] at hx hrest
  refine ⟨t, hexec, ?_, hrest⟩
  rw [hx, toNat_byte_shr, State.reg_setReg]

/-- Settles O45: the flag, and then the reverse difference of the registers as the flag's write left them. -/
theorem subnSubtractsReversedAfterFlag : Obligations.SubnSubtractsReversedAfterFlag := by
  unfold Obligations.SubnSubtractsReversedAfterFlag
  intro s x y f hf
  have hf : noBorrowFlag (s.reg y) (s.reg x) = f := (noBorrowFlag_eq ..).trans hf.symm
  obtain ⟨t, hexec, hx, hrest⟩ := next_of_exec_flag_result (exec_subn s x y)
  rw [hf] at hx hrest
  refine ⟨t, hexec, ?_, hrest⟩
  rw [hx, toNat_byte_sub, State.reg_setReg, State.reg_setReg]

/-- Settles O46: the flag, and then twice V[y] as the flag's write left it. -/
theorem shlShiftsSourceLeft : Obligations.ShlShiftsSourceLeft := by
  unfold Obligations.ShlShiftsSourceLeft
  intro s x y f hf
  have hf : shiftedOutHigh (s.reg y) = f := BitVec.eq_of_toNat_eq ((toNat_shiftedOutHigh _).trans hf.symm)
  obtain ⟨t, hexec, hx, hrest⟩ := next_of_exec_flag_result (exec_shl s x y)
  rw [hf] at hx hrest
  refine ⟨t, hexec, ?_, hrest⟩
  rw [hx, toNat_byte_shl, State.reg_setReg]

/-! Both operands the flag register (spec/42_alu.md R103) -/

theorem reg_vf_of_logic {s t : State} {i : Instr} (h : exec i s = .next t)
    (hi : i = .or vf vf ∨ i = .and vf vf ∨ i = .xor vf vf) : t.reg vf = 0 := by
  obtain rfl | rfl | rfl := hi <;> cases h <;> exact State.reg_setReg_same ..

theorem reg_vf_of_sub {s t : State} {i : Instr} (h : exec i s = .next t) (hi : i = .sub vf vf ∨ i = .subn vf vf) :
    t.reg vf = 0 := by
  obtain rfl | rfl := hi <;> cases h <;> exact (State.reg_setReg_same ..).trans (BitVec.sub_self _)

theorem reg_vf_of_shr {s t : State} (h : exec (.shr vf vf) s = .next t) : t.reg vf = 0 := by
  cases h
  refine BitVec.eq_of_toNat_eq ?_
  rw [State.advance_reg, State.reg_setReg_same, State.setFlag_eq, State.reg_setReg_same, toNat_byte_shr,
    toNat_shiftedOutLow]
  exact Nat.div_eq_of_lt (Nat.mod_lt _ (by decide))

/-- Settles O47: the last write decides. The logic ones clear the flag last; the others write a result last, ADD_REG
that of the old values, the rest one made from the flag. -/
theorem flagRegisterAsBothOperands : Obligations.FlagRegisterAsBothOperands := by
  unfold Obligations.FlagRegisterAsBothOperands
  intro s t i h
  refine ⟨?_, ?_, ?_⟩
  · rintro (hi | hi | hi | hi | rfl | hi)
    · exact reg_vf_of_logic h (.inl hi)
    · exact reg_vf_of_logic h (.inr (.inl hi))
    · exact reg_vf_of_logic h (.inr (.inr hi))
    · exact reg_vf_of_sub h (.inl hi)
    · exact reg_vf_of_shr h
    · exact reg_vf_of_sub h (.inr hi)
  · rintro rfl
    cases h
    rw [State.advance_reg, State.reg_setReg_same, BitVec.toNat_ofNat, wideSum, two_mul]
  · rintro rfl
    cases h
    rw [State.advance_reg, State.reg_setReg_same, State.setFlag_eq, State.reg_setReg_same, toNat_byte_shl,
      toNat_shiftedOutHigh]
    have hvf : (s.reg vf).toNat < 256 := (s.reg vf).isLt
    omega

/-! The random byte -/

theorem and_and_not_self (m b : Byte) : (m &&& b) &&& ~~~m = 0 := by
  rw [BitVec.and_comm m b, BitVec.and_assoc, BitVec.and_not_self]
  exact BitVec.and_zero

/-- Settles O48: the draw, the masked byte written, and the advance of pc. -/
theorem rndMasksRandomByte : Obligations.RndMasksRandomByte := by
  unfold Obligations.RndMasksRandomByte
  intro s x kk
  have hexec := exec_rnd s x kk
  have hx : (s.drawn.setReg x (kk &&& Config.randomByte s.draws)).reg x = kk &&& Config.randomByte s.draws :=
    State.reg_setReg_same ..
  exact ⟨_, hexec, hx, (congrArg (· &&& ~~~kk) hx).trans (and_and_not_self ..), rfl,
    fun r hr => State.reg_setReg_of_ne _ _ hr, rfl, keepsAllBut_of_exec hexec⟩

end Sys2Proof.Machine
end

section
/-! SUPPORT. The memory transfers from and to address I (spec/43_index_memory.md R112 to R115, spec/20_memory.md R40). -/

namespace Sys2Proof.Machine

/-! The index of a glyph -/

theorem toNat_glyphIndex (b : Byte) : (Config.fontIBase + 5 * zextByte b).toNat = 5 * b.toNat := by
  have hb : b.toNat < 256 := b.isLt
  have hbase : Config.fontIBase = 0 := rfl
  rw [hbase, zero_add, BitVec.toNat_mul, toNat_zextByte]
  exact Nat.mod_eq_of_lt (by omega : 5 * b.toNat < 65536)

/-- Settles O50: the write of the index register and the advance of pc; the product does not wrap. -/
theorem ldFPointsAtFiveTimesVx : Obligations.LdFPointsAtFiveTimesVx := by
  unfold Obligations.LdFPointsAtFiveTimesVx
  exact fun s x => next_of_exec_setIndex (exec_ldF s x) (toNat_glyphIndex _)

/-! Transfers inside memory -/

theorem State.indexError_of_le {s : State} {count : Nat} (h : s.index.toNat + count ≤ 4096) :
    s.indexError count = none :=
  State.indexError_eq_none.mpr (.inr h)

theorem State.indexError_rangeCount_of_lt {s : State} {x : RegIdx} (h : s.index.toNat + x.toNat < 4096) :
    s.indexError (rangeCount x) = none :=
  State.indexError_of_le h

/-- The index past a range inside memory does not wrap. -/
theorem toNat_index_add_rangeCount {a : Word} {x : RegIdx} (h : a.toNat + x.toNat < 4096) :
    (a + BitVec.ofNat 16 (rangeCount x)).toNat = a.toNat + x.toNat + 1 := by
  rw [BitVec.toNat_add, BitVec.toNat_ofNat, rangeCount]
  omega

theorem exec_ldB_of_fits {s : State} {x : RegIdx} (h : s.index.toNat + 2 < 4096) :
    exec (.ldB x) s = .next ((s.store s.index.toNat (decimalDigits (s.reg x))).advance 2) :=
  finish_eq_next.mpr ⟨State.indexError_of_le h, rfl⟩

theorem exec_stRegs_of_fits {s : State} {x : RegIdx} (h : s.index.toNat + x.toNat < 4096) :
    exec (.stRegs x) s = .next
      (((s.store s.index.toNat (s.regRange x)).setIndex (s.index + BitVec.ofNat 16 (rangeCount x))).advance 2) :=
  finish_eq_next.mpr ⟨State.indexError_rangeCount_of_lt h, rfl⟩

theorem exec_ldRegs_of_fits {s : State} {x : RegIdx} (h : s.index.toNat + x.toNat < 4096) :
    exec (.ldRegs x) s = .next (((s.setRegsFrom 0 (s.bytesAtIndex (rangeCount x))).setIndex
      (s.index + BitVec.ofNat 16 (rangeCount x))).advance 2) :=
  finish_eq_next.mpr ⟨State.indexError_rangeCount_of_lt h, rfl⟩

theorem fits_of_stRegs {s t : State} {x : RegIdx} (h : exec (.stRegs x) s = .next t) :
    s.index.toNat + x.toNat < 4096 :=
  State.index_add_le_of_indexError (Nat.succ_ne_zero _) (finish_eq_next.mp h).1

/-- Settles O51: the store of the three digits, each less than 256, and the advance of pc. -/
theorem ldBStoresDigits : Obligations.LdBStoresDigits := by
  unfold Obligations.LdBStoresDigits
  intro s x hfits
  have hexec := exec_ldB_of_fits (x := x) hfits
  have hv : (s.reg x).toNat < 256 := (s.reg x).isLt
  have hdigit (k : Nat) (hk : k < 3) :
      ((s.store s.index.toNat (decimalDigits (s.reg x))).advance 2).byteAt (s.index.toNat + k) =
        (decimalDigits (s.reg x)).getD k 0 :=
    s.byteAt_store_add _ hk
  refine ⟨_, hexec, ?_, ?_, ?_, fun a ha => ?_, rfl, keepsAllBut_of_exec hexec⟩
  · exact (congrArg BitVec.toNat (hdigit 0 (by decide))).trans (Nat.mod_eq_of_lt (by omega))
  · exact (congrArg BitVec.toNat (hdigit 1 (by decide))).trans (Nat.mod_eq_of_lt (by omega))
  · exact (congrArg BitVec.toNat (hdigit 2 (by decide))).trans (Nat.mod_eq_of_lt (by omega))
  · exact instructionsStoreOnlyTheirBytes _ _ _ hexec a (by simp only [storedCount]; omega)

/-- Settles O52: the store of the register range, the index past it, and the advance of pc. -/
theorem stRegsStoresRange : Obligations.StRegsStoresRange := by
  unfold Obligations.StRegsStoresRange
  intro s x hfits
  have hexec := exec_stRegs_of_fits hfits
  refine ⟨_, hexec, fun r hr => ?_, fun a ha => ?_, toNat_index_add_rangeCount hfits, rfl, keepsAllBut_of_exec hexec⟩
  · have hlt : r.toNat < (s.regRange x).length := by
      rw [State.length_regRange]
      exact Nat.lt_succ_of_le hr
    exact (s.byteAt_store_add _ hlt).trans (s.getD_regRange x r hr)
  · exact instructionsStoreOnlyTheirBytes _ _ _ hexec a (by simp only [storedCount, rangeCount]; omega)

/-- Settles O53: the load of the register range, the index past it, and the advance of pc. -/
theorem ldRegsLoadsRange : Obligations.LdRegsLoadsRange := by
  unfold Obligations.LdRegsLoadsRange
  intro s x hfits
  have hexec := exec_ldRegs_of_fits hfits
  have hreg := s.reg_setRegsFrom_bytesAtIndex x
  have hpc : (s.setRegsFrom 0 (s.bytesAtIndex (rangeCount x))).pc = s.pc :=
    s.setRegsFrom_keepsAllBut 0 _ .pc (by decide)
  exact ⟨_, hexec, fun r hr => (hreg r).trans (if_pos hr), fun r hr => (hreg r).trans (if_neg hr.not_ge),
    toNat_index_add_rangeCount hfits, congrArg (· + 2) hpc, keepsAllBut_of_exec hexec⟩

/-! Stores and what reads them back -/

/-- Settles O27: the load reads the bytes that the store put at the same addresses. -/
theorem loadUndoesStore : Obligations.LoadUndoesStore := by
  unfold Obligations.LoadUndoesStore
  intro s t u x hstore hmem hindex
  have hfits := fits_of_stRegs hstore
  obtain ⟨t', hstore', hbytes, -⟩ := stRegsStoresRange s x hfits
  obtain rfl : t = t' := Host.Outcome.next.inj (hstore.symm.trans hstore')
  obtain ⟨v, hload, hregs, -⟩ := ldRegsLoadsRange u x (hindex ▸ hfits)
  refine ⟨v, hload, fun r hr => ?_⟩
  calc v.reg r = u.byteAt (u.index.toNat + r.toNat) := hregs r hr
    _ = t.byteAt (s.index.toNat + r.toNat) := by rw [hindex, hmem]
    _ = s.reg r := hbytes r hr

/-- Settles O28: the step leaves V[0] and V[1] in the two bytes after its own word, which is where pc stands then. -/
theorem storedInstructionIsFetchedNext : Obligations.StoredInstructionIsFetchedNext := by
  unfold Obligations.StoredInstructionIsFetchedNext
  intro s t x hnext hindex hx hstep
  rw [step_eq_completeOutcome hnext, completeOutcome_eq_next] at hstep
  obtain ⟨u, hexec, rfl⟩ := hstep
  have hfits := fits_of_stRegs hexec
  obtain ⟨u', hexec', hbytes, -, -, hpc, -⟩ := stRegsStoresRange s x hfits
  obtain rfl : u = u' := Host.Outcome.next.inj (hexec.symm.trans hexec')
  have hpcI : (u.complete (s.wordAt s.pc.toNat) none).pc = s.index := hpc.trans hindex.symm
  have hword : (u.complete (s.wordAt s.pc.toNat) none).wordAt s.index.toNat = wordOfBytes (s.reg 0) (s.reg 1) :=
    congrArg₂ wordOfBytes (hbytes 0 (Nat.zero_le _)) (hbytes 1 hx)
  have hmem : Config.memSize = 4096 := rfl
  rw [State.fetch_eq_ok, hpcI, hword]
  exact ⟨by omega, rfl⟩

end Sys2Proof.Machine
end

section
/-! SUPPORT. The keypad and the timer loads (spec/44_keypad_timers.md R120 to R125). -/

namespace Sys2Proof.Machine

/-- Settles O54: a skip by the key's flag, or the error tested first. -/
theorem keySkips : Obligations.KeySkips := by
  unfold Obligations.KeySkips
  refine fun s x => ⟨fun hkey => ?_, fun hkey => ?_⟩
  · have hok : keyError (s.reg x) = none := keyError_eq_none.mpr hkey
    refine ⟨⟨_, finish_eq_next.mpr ⟨hok, rfl⟩, rfl, s.advance_keepsAllBut _⟩,
      ⟨_, finish_eq_next.mpr ⟨hok, rfl⟩, ?_, s.advance_keepsAllBut _⟩⟩
    cases hdown : s.key (s.reg x).toNat <;> simp
  · have herr : keyError (s.reg x) = some (.keypadIndexOutOfBounds (s.reg x)) := keyError_eq_some.mpr ⟨hkey, rfl⟩
    exact ⟨finish_eq_fault.mpr herr, finish_eq_fault.mpr herr⟩

theorem exec_ldVxK_of_firstKey {s : State} {k : Nat} (x : RegIdx) (h : s.firstKey = some k) :
    exec (.ldVxK x) s = .next ((s.setReg x (BitVec.ofNat 8 k)).advance 2) := by
  rw [exec_ldVxK, h]

theorem exec_ldVxK_of_no_key {s : State} (x : RegIdx) (h : s.firstKey = none) : exec (.ldVxK x) s = .next s := by
  rw [exec_ldVxK, h]

/-- The end of a step keeps pc and memory, so what has not moved pc runs again. -/
theorem State.nextInstr_complete (s : State) (w : Word) (d : Option Word) :
    (s.complete w d).nextInstr = s.nextInstr :=
  State.nextInstr_congr rfl (s.complete_keepsAllBut w d .mem (by decide))

/-- Settles O56: with a key down, the write of one register and the advance of pc; with none, nothing before the end of
the step. -/
theorem keyWait : Obligations.KeyWait := by
  unfold Obligations.KeyWait
  refine fun s x => ⟨fun k hdown hlower => ?_, fun hup => ?_⟩
  · have hk : k.toNat < 16 := k.isLt
    have hfirst : s.firstKey = some k.toNat := State.firstKey_eq_some.mpr ⟨hk, hdown, hlower⟩
    obtain ⟨t, hexec, hx, hrest⟩ := next_of_exec_setReg (exec_ldVxK_of_firstKey x hfirst)
    refine ⟨t, hexec, ?_, hrest⟩
    rw [hx, BitVec.toNat_ofNat]
    exact Nat.mod_eq_of_lt (by omega)
  · have hexec : exec (.ldVxK x) s = .next s := exec_ldVxK_of_no_key x (State.firstKey_eq_none.mpr hup)
    exact ⟨hexec, fun hnext => ⟨_, step_of_nextInstr hnext hexec, rfl, (s.nextInstr_complete _ _).trans hnext⟩⟩

/-- Settles O57: the write of one timer and the advance of pc. -/
theorem timerLoads : Obligations.TimerLoads := by
  unfold Obligations.TimerLoads
  exact fun s x => ⟨⟨_, exec_ldDtVx s x, rfl, rfl, keepsAllBut_of_exec (exec_ldDtVx s x)⟩,
    ⟨_, exec_ldStVx s x, rfl, rfl, keepsAllBut_of_exec (exec_ldStVx s x)⟩⟩

end Sys2Proof.Machine
end

section
/-! SUPPORT. Reset and the host's writes (spec/70_reset_and_hazards.md R160, R163, R164, spec/10_state.md R25, R26). -/

namespace Sys2Proof.Machine

/-! Reset -/

theorem Memory.unlisted_font (k : Nat) : Memory.unlisted (0x050 + k) = Config.fontset.getD k 0 := by
  have hbase : Config.fontLoadBase ≤ 0x050 + k := Nat.le_add_right _ k
  rw [Memory.unlisted, if_pos hbase]
  exact congrArg (Config.fontset.getD · 0) (Nat.add_sub_cancel_left _ k)

theorem Memory.unlisted_of_high {a : Nat} (h : 0x0A0 ≤ a) : Memory.unlisted a = 0 := by
  obtain ⟨k, rfl⟩ : ∃ k, a = 0x050 + k := ⟨a - 0x050, by omega⟩
  have hlen : Config.fontset.length = 80 := rfl
  exact (Memory.unlisted_font k).trans (List.getD_eq_default _ _ (by omega))

/-- Settles O58: reset writes every item; what memory reads where nothing is listed is the font and 0 around it. -/
theorem resetValues : Obligations.ResetValues := by
  unfold Obligations.ResetValues
  intro s
  refine ⟨rfl, rfl, rfl, rfl, rfl, rfl, rfl, rfl, fun r => ?_, fun k => ?_, fun k hk => ?_, fun k _ => ?_, rfl,
    fun k _ => Memory.unlisted_font k, fun a ha => ?_⟩
  · simp [State.hostReset, State.reset, State.reg]
  · simp [State.hostReset, State.reset]
  · simp [State.hostReset, State.reset, State.key, Vector.getD, hk]
  · exact Display.pixel_clear ..
  · exact ha.elim Memory.unlisted_of_low Memory.unlisted_of_high

/-! The host's writes -/

theorem State.setKey_keepsAllBut (s : State) (index : Nat) (pressed : Bool) :
    KeepsAllBut [.keys] s { s with keys := s.keys.setIfInBounds index pressed } := by
  intro p hp
  cases p with
  | keys => simp at hp
  | mem => exact fun _ => rfl
  | regs => exact fun _ => rfl
  | _ => rfl

theorem State.clearRedraw_keepsAllBut (s : State) : KeepsAllBut [.redraw] s s.clearRedraw := by
  intro p hp
  cases p with
  | redraw => simp at hp
  | mem => exact fun _ => rfl
  | regs => exact fun _ => rfl
  | _ => rfl

/-- A key reads what was last written to it, and a write changes no other (spec/70_reset_and_hazards.md R163). -/
theorem State.key_setKey (s : State) {index : Nat} (pressed : Bool) (h : index < 16) (k : Nat) :
    ({ s with keys := s.keys.setIfInBounds index pressed } : State).key k = if k = index then pressed else s.key k := by
  by_cases hk : k = index
  · simp [State.key, Vector.getD, hk, h]
  · simp [State.key, Vector.getD, hk, Ne.symm hk]

/-- Settles O60: the flag's write with its frame, no move above 15, and the redraw flag's write with its frame. -/
theorem hostWritesKeysAndRedraw : Obligations.HostWritesKeysAndRedraw := by
  unfold Obligations.HostWritesKeysAndRedraw
  intro s index pressed
  refine ⟨fun hlt => ⟨_, s.setKey_of_lt pressed hlt, ?_, fun k hk => ?_, s.setKey_keepsAllBut index pressed⟩,
    s.setKey_of_le pressed, rfl, s.clearRedraw_keepsAllBut⟩
  · rw [s.key_setKey pressed hlt, if_pos rfl]
  · rw [s.key_setKey pressed hlt, if_neg hk]

end Sys2Proof.Machine
end

section
/-! SUPPORT. The display instructions, pixel by pixel (spec/40_display.md R70 to R72). -/

namespace Sys2Proof.Machine

/-! Pixels and sprite bits -/

/-- The row-major number of a pixel (spec/10_state.md R20). -/
theorem State.fbAt_eq_pixel (s : State) {cx : Nat} (hcx : cx < 64) (cy : Nat) :
    s.fbAt (cy * 64 + cx) = s.fb.pixel cx cy := by
  have hcol : (cy * 64 + cx) % Config.fbWidth = cx := by
    rw [Config.fbWidth]
    omega
  have hrow : (cy * 64 + cx) / Config.fbWidth = cy := by
    rw [Config.fbWidth]
    omega
  rw [State.fbAt, hcol, hrow]

/-- The rectangle of a sprite that is drawn is empty or on the screen (spec/40_display.md R71). -/
def RectOnScreen (px py n : Nat) : Prop := n = 0 ∨ (px + 7 < 64 ∧ py + n ≤ 32)

theorem State.spriteBit_of_no_rows (s : State) (px py cx cy : Nat) : s.spriteBit px py 0 cx cy = false := by
  refine Bool.eq_false_iff.mpr fun h => ?_
  simp only [State.spriteBit, Bool.and_eq_true, decide_eq_true_eq] at h
  omega

theorem State.onScreen_of_spriteBit {s : State} {px py n cx cy : Nat} (hrect : RectOnScreen px py n)
    (h : s.spriteBit px py n cx cy = true) : cx < 64 ∧ cy < 32 := by
  simp only [State.spriteBit, Bool.and_eq_true, decide_eq_true_eq] at h
  obtain rfl | hrect := hrect
  · omega
  · omega

theorem State.spriteBit_congr {s u : State} (hindex : u.index = s.index) (hmem : ∀ a, u.byteAt a = s.byteAt a)
    (px py n cx cy : Nat) : u.spriteBit px py n cx cy = s.spriteBit px py n cx cy := by
  simp only [State.spriteBit, hindex, hmem]

/-- What the loop of a draw leaves on the screen, and whether it collided. -/
def State.drawSprite (s : State) (px py n : Nat) : Drawing :=
  Drawing.rows px py (s.bytesAtIndex n) { display := s.fb, collided := false }

theorem State.pixel_drawSprite (s : State) {px py n : Nat} (hrect : RectOnScreen px py n) (cx cy : Nat) :
    (s.drawSprite px py n).display.pixel cx cy = (s.fb.pixel cx cy ^^ s.spriteBit px py n cx cy) := by
  obtain rfl | ⟨hx, hy⟩ := hrect
  · rw [State.spriteBit_of_no_rows, Bool.xor_false]
    rfl
  · have hy : py + (s.bytesAtIndex n).length ≤ 32 := by rwa [State.length_bytesAtIndex]
    rw [State.drawSprite, Drawing.pixel_rows hx _ _ hy, State.length_bytesAtIndex, State.spriteBit_eq]

theorem State.collided_drawSprite (s : State) {px py n : Nat} (hrect : RectOnScreen px py n) :
    (s.drawSprite px py n).collided = true ↔
      ∃ cx cy, s.fb.pixel cx cy = true ∧ s.spriteBit px py n cx cy = true := by
  obtain rfl | ⟨hx, hy⟩ := hrect
  · simp only [State.spriteBit_of_no_rows, Bool.false_eq_true, and_false, exists_const, iff_false]
    exact Bool.false_ne_true
  · have hy : py + (s.bytesAtIndex n).length ≤ 32 := by rwa [State.length_bytesAtIndex]
    rw [State.drawSprite, Drawing.collided_rows hx _ _ hy, State.length_bytesAtIndex]
    simp only [State.spriteBit_eq, Bool.and_eq_true, decide_eq_true_eq, Bool.false_eq_true, false_or]
    refine exists_congr fun cx => exists_congr fun cy => ?_
    tauto

/-- The same with the pixels of the screen by their numbers. -/
theorem State.collided_drawSprite_fbAt (s : State) {px py n : Nat} (hrect : RectOnScreen px py n) :
    (s.drawSprite px py n).collided = true ↔
      ∃ cx cy, cx < 64 ∧ cy < 32 ∧ s.fbAt (cy * 64 + cx) = true ∧ s.spriteBit px py n cx cy = true := by
  rw [s.collided_drawSprite hrect]
  refine exists_congr fun cx => exists_congr fun cy => ⟨fun ⟨hset, hbit⟩ => ?_, fun ⟨hcx, _, hset, hbit⟩ => ?_⟩
  · obtain ⟨hcx, hcy⟩ := State.onScreen_of_spriteBit hrect hbit
    exact ⟨hcx, hcy, (s.fbAt_eq_pixel hcx cy).trans hset, hbit⟩
  · exact ⟨(s.fbAt_eq_pixel hcx cy).symm.trans hset, hbit⟩

theorem flagOf_eq_one {c : Bool} : flagOf c = 1 ↔ c = true := by
  cases c <;> decide

theorem flagOf_eq_one_or_zero (c : Bool) : flagOf c = 1 ∨ flagOf c = 0 := by
  cases c <;> decide

/-! The instructions -/

/-- Settles O31: the cleared screen, the request, and the advance of pc. -/
theorem clsClearsScreen : Obligations.ClsClearsScreen := by
  unfold Obligations.ClsClearsScreen
  exact fun s => ⟨_, exec_cls s, fun k _ => Display.pixel_clear .., rfl, rfl, keepsAllBut_of_exec (exec_cls s)⟩

/-- When a draw completes: no rows, or its bytes in memory and its rectangle on the screen. -/
theorem State.drawError_eq_none_iff {s : State} {px py : Byte} {n : Nibble} :
    s.drawError px py n = none ↔
      n = 0 ∨ (s.index.toNat + n.toNat ≤ 4096 ∧ px.toNat + 7 ≤ 63 ∧ py.toNat + n.toNat ≤ 32) := by
  have hzero : n.toNat = 0 ↔ n = 0 := BitVec.toNat_inj (y := 0)
  have hmem : Config.memSize = 4096 := rfl
  rw [drawError_eq_none, State.indexError_eq_none, rectError_eq_none, hzero, hmem, ← or_and_left]
  refine or_congr_right (and_congr_right fun _ => and_congr_left fun _ => ?_)
  omega

theorem exec_drw_eq_next {s t : State} {x y : RegIdx} {n : Nibble} :
    exec (.drw x y n) s = .next t ↔ s.drawError (s.reg x) (s.reg y) n = none ∧
      t = ((s.setScreen (s.drawSprite (s.reg x).toNat (s.reg y).toNat n.toNat).display).setReg vf
        (flagOf (s.drawSprite (s.reg x).toNat (s.reg y).toNat n.toNat).collided)).advance 2 :=
  finish_eq_next.trans (and_congr_right fun _ => eq_comm)

/-- Settles O32: the screen and the flag are those of the loop over the sprite's rows, whose bytes and rectangle have
been tested. -/
theorem drwDrawsSprite : Obligations.DrwDrawsSprite := by
  unfold Obligations.DrwDrawsSprite
  intro s x y n hfits
  have hexec := exec_drw_eq_next.mpr ⟨State.drawError_eq_none_iff.mpr hfits, rfl⟩
  have hrect : RectOnScreen (s.reg x).toNat (s.reg y).toNat n.toNat :=
    hfits.imp (congrArg BitVec.toNat) fun ⟨_, hx, hy⟩ => ⟨by omega, hy⟩
  have hflag := State.reg_setReg_same (s.setScreen (s.drawSprite (s.reg x).toNat (s.reg y).toNat n.toNat).display) vf
    (flagOf (s.drawSprite (s.reg x).toNat (s.reg y).toNat n.toNat).collided)
  refine ⟨_, hexec, fun cx cy hcx hcy => ?_, ?_, ?_, fun r hr => State.reg_setReg_of_ne _ _ hr, rfl, rfl,
    keepsAllBut_of_exec hexec⟩
  · rw [State.fbAt_eq_pixel _ hcx, State.fbAt_eq_pixel _ hcx]
    exact s.pixel_drawSprite hrect cx cy
  · rw [State.advance_reg, hflag]
    exact flagOf_eq_one_or_zero _
  · rw [State.advance_reg, hflag, flagOf_eq_one]
    exact s.collided_drawSprite_fbAt hrect

/-- Settles O29: both draws invert the pixels under the same bits, so the second meets a set pixel under a bit where the
first met a clear one. -/
theorem drawingTwiceRestores : Obligations.DrawingTwiceRestores := by
  unfold Obligations.DrawingTwiceRestores
  intro s t u x y x' y' n hfirst hfb hmem hindex hx hy
  have hfits := State.drawError_eq_none_iff.mp (exec_drw_eq_next.mp hfirst).1
  obtain ⟨t', hfirst', hpixel, -, hcollide, -, -, -, hframe⟩ := drwDrawsSprite s x y n hfits
  obtain rfl : t = t' := Host.Outcome.next.inj (hfirst.symm.trans hfirst')
  have hframeI : t.index = s.index := hframe .index (by decide)
  have hframeM : ∀ a, t.byteAt a = s.byteAt a := hframe .mem (by decide)
  have hindex : u.index = s.index := hindex.trans hframeI
  have hbit := State.spriteBit_congr hindex fun a => (hmem a).trans (hframeM a)
  have hfbAt (i : Nat) : u.fbAt i = t.fbAt i := by rw [State.fbAt, State.fbAt, hfb]
  obtain ⟨v, hsecond, hpixel', -, hcollide', -⟩ := drwDrawsSprite u x' y' n (by rwa [hindex, hx, hy])
  simp only [hx, hy, hbit, hfbAt] at hpixel' hcollide'
  refine ⟨v, hsecond, Display.ext_pixel fun cx cy hcx hcy => ?_, hcollide'.trans ?_, fun hclear => hcollide'.trans ?_⟩
  · rw [← State.fbAt_eq_pixel _ hcx, ← State.fbAt_eq_pixel _ hcx, hpixel' cx cy hcx hcy, hpixel cx cy hcx hcy,
      Bool.xor_assoc, Bool.xor_self, Bool.xor_false]
  · refine exists_congr fun cx => exists_congr fun cy => and_congr_right fun hcx => and_congr_right fun hcy =>
      and_congr_left fun hset => ?_
    rw [hpixel cx cy hcx hcy, hset, Bool.xor_true, Bool.not_eq_true']
  · have hnone : ¬ t.reg vf = 1 := by simp [hclear]
    refine exists_congr fun cx => exists_congr fun cy => and_congr_right fun hcx => and_congr_right fun hcy =>
      and_iff_right_of_imp fun hset => ?_
    have hclearPixel : s.fbAt (cy * 64 + cx) = false :=
      Bool.eq_false_iff.mpr fun hon => hnone (hcollide.mpr ⟨cx, cy, hcx, hcy, hon, hset⟩)
    rw [hpixel cx cy hcx hcy, hset, hclearPixel, Bool.false_xor]

end Sys2Proof.Machine
end
